-- ==== Sys2Proof/Word.lean ====
section
/-! DEFINITION. The word type of the LS-8 engine: every register, memory cell, operand byte and
immediate is an unsigned 8-bit value (00_scope.md rule R7, WORD). -/

namespace Sys2Proof

/-- An unsigned 8-bit value (00_scope.md rule R7). -/
abbrev Byte := BitVec 8

/-- One byte of the operand window: the byte at pc+1 or pc+2, or ABSENT when that address lies
beyond memory (40_dispatch.md rule R82). -/
inductive WindowByte where
  | byte (v : Byte)
  | absent
  deriving DecidableEq, Repr

end Sys2Proof
end

