-- ==== Sys2Proof/Config.lean ====
section
/-! DEFINITION. What is fixed for the block: the constants of 00_scope.md rule R7 and the two named
parameters of rules R8 and R9. The spec leaves no result open, so there is no free value here. -/

namespace Sys2Proof

/-- MEM_SIZE: 256 cells, addresses 0 to 255 (00_scope.md rule R7). -/
abbrev memSize : Nat := 256

/-- NREGS: 8 registers (00_scope.md rule R7). -/
abbrev nRegs : Nat := 8

/-- SP_INDEX: register R7 is the stack pointer (00_scope.md rule R7). -/
abbrev spIndex : Fin nRegs := 7

/-- STACK_TOP: the reset value of SP and the bound the stack may not be popped past (00_scope.md
rule R7). -/
abbrev stackTop : Byte := 0xF4

/-- PC_RESET (00_scope.md rule R7). -/
abbrev pcReset : Nat := 0

/-- LOAD_BASE (00_scope.md rule R7). -/
abbrev loadBase : Nat := 0

/-- FLAG_WIDTH: the flag register has 3 bits, bit 0 Equal, bit 1 Greater, bit 2 Less (00_scope.md
rule R7). -/
abbrev flagWidth : Nat := 3

/-- MAX_INSN_LEN: the longest instruction, in bytes (00_scope.md rule R7). -/
abbrev maxInsnLen : Nat := 3

/-- UNKNOWN_OPCODE_POLICY (00_scope.md rule R8). -/
inductive UnknownOpcodePolicy where
  | permissive
  | strict
  deriving DecidableEq, Repr

/-- ALU_EXT: how the bytes of SUB, DIV, AND, OR and XOR are treated (00_scope.md rule R9). -/
inductive AluExt where
  | absent
  | unsupported
  | ls8
  deriving DecidableEq, Repr

/-- The named parameters a model takes (spec/INDEX.md). DESIGN CHOICE (log 2): they stand in State
as data no step writes, so that a claim holds for every value of them. -/
structure Params where
  unknownOpcodePolicy : UnknownOpcodePolicy
  aluExt : AluExt
  deriving DecidableEq, Repr

/-- The defaults the spec names: Permissive (00_scope.md rule R8) and Absent (rule R9). -/
def Params.specDefault : Params := { unknownOpcodePolicy := .permissive, aluExt := .absent }

end Sys2Proof
end

