-- ==== Sys2Proof/Syntax.lean ====
section
/-! DEFINITION. The instructions: one constructor for each of the sixteen rows of
spec/opcode_table.json. An operand is a byte of the operand window, whole and unmasked
(30_encoding.md rules R63 and R64), which may be ABSENT at the top of memory (40_dispatch.md rule
R82): an operand is checked only when the instruction references it, so an instruction with a bad
operand is still an instruction (10_state.md rule R24). `a` is the byte at pc+1, `b` and `imm` the
byte at pc+2 (30_encoding.md rule R61). -/

namespace Sys2Proof

/-- An instruction of the block (30_encoding.md rules R61, R65 and R68). -/
inductive Instr where
  /-- HLT, format F0 (45_halt.md rule R150). -/
  | hlt
  /-- LDI Ra,imm, format F2RI (42_move_output.md rule R120). -/
  | ldi (a imm : WindowByte)
  /-- PRN Ra, format F1R (42_move_output.md rule R121). -/
  | prn (a : WindowByte)
  /-- PUSH Ra, format F1R (43_stack.md rule R131). -/
  | push (a : WindowByte)
  /-- POP Ra, format F1R (43_stack.md rule R132). -/
  | pop (a : WindowByte)
  /-- JMP Ra, format F1R (44_control.md rule R140). -/
  | jmp (a : WindowByte)
  /-- JEQ Ra, format F1R (44_control.md rule R141). -/
  | jeq (a : WindowByte)
  /-- JNE Ra, format F1R (44_control.md rule R142). -/
  | jne (a : WindowByte)
  /-- ADD Ra,Rb, format F2RR (41_alu.md rule R101). -/
  | add (a b : WindowByte)
  /-- MUL Ra,Rb, format F2RR (41_alu.md rule R102). -/
  | mul (a b : WindowByte)
  /-- CMP Ra,Rb, format F2RR (41_alu.md rule R103). -/
  | cmp (a b : WindowByte)
  /-- SUB Ra,Rb, format F2RR, ALU extension (41_alu.md rule R104). -/
  | sub (a b : WindowByte)
  /-- DIV Ra,Rb, format F2RR, ALU extension (41_alu.md rule R105). -/
  | div (a b : WindowByte)
  /-- AND Ra,Rb, format F2RR, ALU extension (41_alu.md rule R106). -/
  | and (a b : WindowByte)
  /-- OR Ra,Rb, format F2RR, ALU extension (41_alu.md rule R107). -/
  | or (a b : WindowByte)
  /-- XOR Ra,Rb, format F2RR, ALU extension (41_alu.md rule R108). -/
  | xor (a b : WindowByte)
  deriving DecidableEq, Repr

end Sys2Proof
end

