-- ==== Sys2Proof/WellFormed.lean ====
section
/-! DEFINITION. When an instruction is well formed: each register operand of its format is present
and names one of the eight registers, and the immediate of LDI is present (30_encoding.md rules R61,
R63 and R64). An ill-formed instruction is still decoded and run: its bad operand raises an
AddressingError if, and only if, it is referenced (10_state.md rule R24, 40_dispatch.md rule R82). -/

namespace Sys2Proof

/-- A register operand: a byte below 8 (30_encoding.md rule R63). -/
def WindowByte.isRegister : WindowByte → Bool
  | .byte v => v.toNat < nRegs
  | .absent => false

/-- An immediate operand: any byte (30_encoding.md rule R64). -/
def WindowByte.isImmediate : WindowByte → Bool
  | .byte _ => true
  | .absent => false

/-- The checks of each format (30_encoding.md rule R61). -/
def Instr.wellFormed : Instr → Bool
  | .hlt => true
  | .ldi a imm => a.isRegister && imm.isImmediate
  | .prn a => a.isRegister
  | .push a => a.isRegister
  | .pop a => a.isRegister
  | .jmp a => a.isRegister
  | .jeq a => a.isRegister
  | .jne a => a.isRegister
  | .add a b => a.isRegister && b.isRegister
  | .mul a b => a.isRegister && b.isRegister
  | .cmp a b => a.isRegister && b.isRegister
  | .sub a b => a.isRegister && b.isRegister
  | .div a b => a.isRegister && b.isRegister
  | .and a b => a.isRegister && b.isRegister
  | .or a b => a.isRegister && b.isRegister
  | .xor a b => a.isRegister && b.isRegister

end Sys2Proof
end

