-- ==== Sys2Proof/Decode.lean ====
section
/-! DEFINITION. The closed opcode mapping, the decoder (total on any list of bytes, rejecting by
name) and the encoder, from the tables of 30_encoding.md rules R61, R65 and R68. The whole opcode
byte is compared (rule R65, mask 0xFF); no field of it is decoded on its own (rule R66). -/

namespace Sys2Proof

/-! ### Opcode byte values (30_encoding.md rule R65, decision D1) -/

def opHLT : Byte := 0x01
def opLDI : Byte := 0x82
def opPRN : Byte := 0x47
def opPUSH : Byte := 0x45
def opPOP : Byte := 0x46
def opJMP : Byte := 0x54
def opJEQ : Byte := 0x55
def opJNE : Byte := 0x56
def opADD : Byte := 0xA0
def opMUL : Byte := 0xA2
def opCMP : Byte := 0xA7

/-! ### The ALU extension bytes (30_encoding.md rule R68, decisions D1 and D3) -/

def opSUB : Byte := 0xA1
def opDIV : Byte := 0xA3
def opAND : Byte := 0xA8
def opOR : Byte := 0xAA
def opXOR : Byte := 0xAB

/-- The four formats (30_encoding.md rule R61). -/
inductive Format where
  | f0
  | f1r
  | f2rr
  | f2ri
  deriving DecidableEq, Repr

/-- The length in bytes that a format gives (30_encoding.md rules R60 and R61). -/
def Format.length : Format → Nat
  | .f0 => 1
  | .f1r => 2
  | .f2rr => 3
  | .f2ri => 3

/-- One row of the opcode mapping: the byte, its format, and the instruction it makes of the two
window bytes. -/
structure OpcodeRow where
  opcode : Byte
  format : Format
  build : WindowByte → WindowByte → Instr

/-- The eleven entries of 30_encoding.md rule R65, in its order. -/
def baseMap : List OpcodeRow :=
  [ { opcode := opHLT, format := .f0, build := fun _ _ => .hlt },
    { opcode := opLDI, format := .f2ri, build := fun a b => .ldi a b },
    { opcode := opPRN, format := .f1r, build := fun a _ => .prn a },
    { opcode := opPUSH, format := .f1r, build := fun a _ => .push a },
    { opcode := opPOP, format := .f1r, build := fun a _ => .pop a },
    { opcode := opJMP, format := .f1r, build := fun a _ => .jmp a },
    { opcode := opJEQ, format := .f1r, build := fun a _ => .jeq a },
    { opcode := opJNE, format := .f1r, build := fun a _ => .jne a },
    { opcode := opADD, format := .f2rr, build := fun a b => .add a b },
    { opcode := opMUL, format := .f2rr, build := fun a b => .mul a b },
    { opcode := opCMP, format := .f2rr, build := fun a b => .cmp a b } ]

/-- The five entries of 30_encoding.md rule R68, in its order. -/
def extMap : List OpcodeRow :=
  [ { opcode := opSUB, format := .f2rr, build := fun a b => .sub a b },
    { opcode := opDIV, format := .f2rr, build := fun a b => .div a b },
    { opcode := opAND, format := .f2rr, build := fun a b => .and a b },
    { opcode := opOR, format := .f2rr, build := fun a b => .or a b },
    { opcode := opXOR, format := .f2rr, build := fun a b => .xor a b } ]

/-- The opcode mapping in force: the extension bytes are in it only when ALU_EXT is not Absent
(30_encoding.md rules R67 and R68, 40_dispatch.md rule R83). -/
def opcodeMap : AluExt → List OpcodeRow
  | .absent => baseMap
  | .unsupported => baseMap ++ extMap
  | .ls8 => baseMap ++ extMap

/-- Look up an opcode byte in the closed mapping; `none` is an unknown opcode (30_encoding.md rule
R67). -/
def lookupOpcode (ext : AluExt) (op : Byte) : Option OpcodeRow :=
  (opcodeMap ext).find? fun r => r.opcode == op

/-- Whether a byte is one of the five extension bytes of 30_encoding.md rule R68. -/
def isExtOpcode (op : Byte) : Bool :=
  extMap.any fun r => r.opcode == op

/-- Why a list of bytes decodes to no instruction. -/
inductive DecodeReject where
  /-- There is no byte at all: the opcode itself lies beyond memory. -/
  | noBytes
  /-- The opcode byte is not in the mapping (30_encoding.md rule R67). -/
  | unknownOpcode (op : Byte)
  deriving DecidableEq, Repr

/-- The first byte of what follows the opcode, as a window byte (40_dispatch.md rule R82). -/
def headByte : List Byte → WindowByte
  | [] => .absent
  | v :: _ => .byte v

/-- Decode the bytes at an instruction's address: the opcode, then the operand window, of which
fewer than two bytes may be there (40_dispatch.md rules R82 and R83). Bytes beyond the window are
not looked at. -/
def decode (ext : AluExt) : List Byte → Except DecodeReject Instr
  | [] => .error .noBytes
  | op :: window =>
    match lookupOpcode ext op with
    | some r => .ok (r.build (headByte window) (headByte window.tail))
    | none => .error (.unknownOpcode op)

/-! ### The encoder -/

/-- The opcode byte of an instruction (30_encoding.md rules R65 and R68). -/
def Instr.opcode : Instr → Byte
  | .hlt => opHLT
  | .ldi _ _ => opLDI
  | .prn _ => opPRN
  | .push _ => opPUSH
  | .pop _ => opPOP
  | .jmp _ => opJMP
  | .jeq _ => opJEQ
  | .jne _ => opJNE
  | .add _ _ => opADD
  | .mul _ _ => opMUL
  | .cmp _ _ => opCMP
  | .sub _ _ => opSUB
  | .div _ _ => opDIV
  | .and _ _ => opAND
  | .or _ _ => opOR
  | .xor _ _ => opXOR

/-- The operand bytes an instruction's format has, in address order (30_encoding.md rules R43 and
R61). -/
def Instr.operands : Instr → List WindowByte
  | .hlt => []
  | .ldi a imm => [a, imm]
  | .prn a => [a]
  | .push a => [a]
  | .pop a => [a]
  | .jmp a => [a]
  | .jeq a => [a]
  | .jne a => [a]
  | .add a b => [a, b]
  | .mul a b => [a, b]
  | .cmp a b => [a, b]
  | .sub a b => [a, b]
  | .div a b => [a, b]
  | .and a b => [a, b]
  | .or a b => [a, b]
  | .xor a b => [a, b]

/-- The length of an instruction in bytes: the opcode and its operand bytes (30_encoding.md rule
R60). -/
def Instr.length (i : Instr) : Nat :=
  1 + i.operands.length

/-- The bytes of an operand: an ABSENT byte has none. -/
def WindowByte.bytes : WindowByte → List Byte
  | .byte v => [v]
  | .absent => []

/-- The bytes of an instruction, the opcode at the lowest address (30_encoding.md rules R60 and
R61). -/
def encode (i : Instr) : List Byte :=
  i.opcode :: i.operands.flatMap WindowByte.bytes

/-- Whether the mapping in force has the instruction's opcode (40_dispatch.md rule R83). -/
def Instr.inMapping (ext : AluExt) (i : Instr) : Bool :=
  (lookupOpcode ext i.opcode).isSome

/-! ### The opcode table's numbering -/

/-- The bytes of the longest instruction read from a number whose bit 0 is the least significant
bit of the first byte, with every bit at or above `nbits` zero. -/
def tableWordBytes (nbits w : Nat) : List Byte :=
  let v := w % 2 ^ nbits
  [BitVec.ofNat 8 v, BitVec.ofNat 8 (v / 2 ^ 8), BitVec.ofNat 8 (v / 2 ^ 16)]

/-- The instruction the decoder reads from a row of spec/opcode_table.json. DESIGN CHOICE (log 7):
the table lists all sixteen rows, so it is read with the whole mapping (ALU_EXT = LS8). -/
def decodeTableWord (nbits w : Nat) : Option Instr :=
  match decode .ls8 (tableWordBytes nbits w) with
  | .ok i => some i
  | .error _ => none

end Sys2Proof
end

