-- ==== Sys2Proof/Machine/State.lean ====
section
/-! DEFINITION. The state of one engine instance (the tuple at the head of 10_state.md, rules R20 to
R38), the reasons a step can stop, and the state after reset. -/

namespace Sys2Proof.Machine

/-- The errors, numbered as 60_exceptions.md rule R161 numbers them (`ErrorCode.number`). -/
inductive ErrorCode where
  | memIndex
  | regIndex
  | stackOverflow
  | stackUnderflow
  | unsupportedOpcode
  | unsupportedAluOp
  | divideByZero
  | loadError
  deriving DecidableEq, Repr

/-- The fault record `{code, pc, info}` (10_state.md rule R33). `info` is the offending address,
index or byte; a LOAD_ERROR has none the block holds (60_exceptions.md rule R161). -/
structure FaultRecord where
  code : ErrorCode
  pc : Nat
  info : Option Nat
  deriving DecidableEq, Repr

/-- The run state of the dispatch loop (10_state.md rules R32 and R33, 45_halt.md rule R151). -/
inductive RunState where
  | running
  | halted
  | faulted (record : FaultRecord)
  deriving DecidableEq, Repr

/-- Memory: the cells that do not hold what an unlisted address reads as, addresses rising
(20_memory.md rule R40; the canonical form is `Memory.wf`). -/
abbrev Memory := List Host.Cell

/-- The state of one engine (10_state.md). -/
structure State where
  /-- The register file, `regs[7]` = SP (10_state.md rules R20 to R25). -/
  regs : Vector Byte nRegs
  /-- The program counter, which does not wrap (10_state.md rules R26 to R28). -/
  pc : Nat
  /-- FL: bit 0 Equal, bit 1 Greater, bit 2 Less (10_state.md rules R29 to R31). -/
  fl : BitVec flagWidth
  /-- The memory array (20_memory.md rule R40). -/
  mem : Memory
  /-- The run state, with the fault record when Faulted (10_state.md rules R32 and R33). -/
  run : RunState
  /-- The output history, oldest first (10_state.md rule R34). -/
  out : List Byte
  /-- The parameters of 00_scope.md rules R8 and R9, which no step writes (DESIGN CHOICE, log 2). -/
  params : Params
  deriving DecidableEq, Repr

/-- Why a step ends the machine. Raised by `step` alone: no instruction's meaning stops. -/
inductive Fault where
  /-- A step was asked for in Halted, where the machine has none (40_dispatch.md rule R89). Raised by
  `step`; safe: nothing follows it (log 3). -/
  | noStepInHalted
  /-- A step was asked for in Faulted, where the machine has none (40_dispatch.md rule R89). Raised by
  `step`; safe: nothing follows it (log 3). -/
  | noStepInFaulted
  deriving DecidableEq, Repr

/-- Why a step has no meaning. -/
inductive Refusal where
  /-- The instruction has no meaning in the model yet. Raised by an arm of `exec`, and by none of
  them now; safe. -/
  | notModelled (mnemonic : String)
  deriving DecidableEq, Repr

/-- The state after reset under given parameters (10_state.md rule R38, 70_reset_and_hazards.md rule
R190). R0 to R6 are 0 by the spec's decision D4 (log 1). -/
def State.resetWith (p : Params) : State :=
  { regs := #v[0, 0, 0, 0, 0, 0, 0, stackTop]
    pc := pcReset
    fl := 0b000
    mem := []
    run := .running
    out := []
    params := p }

/-- The state after reset (10_state.md rule R38), with the parameters' defaults (00_scope.md rules R8
and R9). -/
def State.reset : State := State.resetWith Params.specDefault

end Sys2Proof.Machine
end

