-- ==== Sys2Proof/Machine/Flags.lean ====
section
/-! DEFINITION. The flag register FL: bit 0 Equal, bit 1 Greater, bit 2 Less (10_state.md rule R29),
and its one computation, CMP's (41_alu.md rule R103). No other instruction writes FL (10_state.md
rule R30). -/

namespace Sys2Proof.Machine

/-- FL.E. -/
def State.flagE (s : State) : Bool := s.fl.getLsbD 0

/-- FL.G: computed, and read by no instruction (44_control.md rule R143). -/
def State.flagG (s : State) : Bool := s.fl.getLsbD 1

/-- FL.L: computed, and read by no instruction (44_control.md rule R143). -/
def State.flagL (s : State) : Bool := s.fl.getLsbD 2

/-- The fresh value CMP gives FL, unsigned, exactly one bit set (41_alu.md rule R103). -/
def compareFlags (va vb : Byte) : BitVec flagWidth :=
  if va.toNat < vb.toNat then 0b100
  else if va.toNat > vb.toNat then 0b010
  else 0b001

/-- The legal values of FL: 0b000 before any CMP, then exactly one bit (10_state.md rule R31). -/
def legalFlags (fl : BitVec flagWidth) : Bool :=
  fl == 0b000 || fl == 0b001 || fl == 0b010 || fl == 0b100

end Sys2Proof.Machine
end

