-- ==== Sys2Proof/Machine/Ops.lean ====
section
/-! DEFINITION. The named operations over memory, registers, output and pc, and TAKING AN ERROR as
one shared operation. -/

namespace Sys2Proof.Machine

/-! ### Memory (20_memory.md) -/

/-- What a cell that is not listed reads as: memory is zero-filled (20_memory.md rule R52). -/
def Memory.unlisted : Byte := 0

/-- The cell at an address below 256 (20_memory.md rule R41). -/
def Memory.read : Memory → Nat → Byte
  | [], _ => Memory.unlisted
  | (a, v) :: m, addr => if a = addr then v else Memory.read m addr

/-- Store a byte, keeping the canonical form: addresses rise, and no entry equals what an unlisted
cell reads as. -/
def Memory.write : Memory → Nat → Byte → Memory
  | [], addr, v => if v = Memory.unlisted then [] else [(addr, v)]
  | (a, w) :: m, addr, v =>
    if addr < a then
      if v = Memory.unlisted then (a, w) :: m else (addr, v) :: (a, w) :: m
    else if addr = a then
      if v = Memory.unlisted then m else (addr, v) :: m
    else (a, w) :: Memory.write m addr v

/-- Every listed address is at least `lo`, they rise, and no entry is one an unlisted cell would
read as. -/
def Memory.canonicalFrom : Nat → Memory → Bool
  | _, [] => true
  | lo, (a, v) :: m =>
    decide (lo ≤ a) && decide (a < memSize) && decide (v ≠ Memory.unlisted) &&
      Memory.canonicalFrom (a + 1) m

/-- The canonical form of memory: addresses strictly rising and below 256 (20_memory.md rule R40), no
entry equal to what an unlisted cell reads as. -/
def Memory.wf (m : Memory) : Bool := Memory.canonicalFrom 0 m

/-- The cells at `addr`, `addr + 1`, … that exist, at most `n` of them (40_dispatch.md rule R82). -/
def Memory.bytesAt (m : Memory) (addr : Nat) : Nat → List Byte
  | 0 => []
  | n + 1 => if addr < memSize then Memory.read m addr :: Memory.bytesAt m (addr + 1) n else []

/-- Store a list of bytes from an address upward, those below 256. -/
def Memory.place (m : Memory) (addr : Nat) : List Byte → Memory
  | [] => m
  | v :: vs => if addr < memSize then Memory.place (Memory.write m addr v) (addr + 1) vs else m

/-! ### Errors inside an instruction -/

/-- An error with its recorded information: `raise E(info)` of 00_scope.md rule R12. -/
structure Raised where
  code : ErrorCode
  info : Nat
  deriving DecidableEq, Repr

/-- The number of an error code (60_exceptions.md rule R161). -/
def ErrorCode.number : ErrorCode → Nat
  | .memIndex => 1
  | .regIndex => 2
  | .stackOverflow => 3
  | .stackUnderflow => 4
  | .unsupportedOpcode => 5
  | .unsupportedAluOp => 6
  | .divideByZero => 7
  | .loadError => 8

/-- TAKING AN ERROR: run becomes Faulted with the code, the pc of the faulting instruction and the
information; nothing else is written (40_dispatch.md rule R87, 60_exceptions.md rule R167). -/
def State.takeError (s : State) (e : Raised) : State :=
  { s with run := .faulted { code := e.code, pc := s.pc, info := some e.info } }

/-- LEAVING IT: there is no return from an error; only a reset leaves Halted or Faulted
(60_exceptions.md rule R168, 70_reset_and_hazards.md rule R190). The parameters are not state of the
block and stay (log 2). -/
def State.applyReset (s : State) : State := State.resetWith s.params

/-! ### Registers (10_state.md) -/

/-- `x[i]` (00_scope.md rule R12). -/
def State.reg (s : State) (i : Fin nRegs) : Byte := s.regs[i]

/-- `x[i] <- v` (00_scope.md rule R12); no register is hardwired (10_state.md rule R20). -/
def State.setReg (s : State) (i : Fin nRegs) (v : Byte) : State :=
  { s with regs := s.regs.set i v }

/-- SP is another name for `x[7]` (00_scope.md rule R12). -/
def State.sp (s : State) : Byte := s.reg spIndex

/-! ### Checked memory access (20_memory.md rule R41) -/

/-- `MemRead(addr, 1)`. -/
def State.memRead (s : State) (addr : Nat) : Except Raised Byte :=
  if addr < memSize then .ok (Memory.read s.mem addr)
  else .error { code := .memIndex, info := addr }

/-- `MemWrite(addr, 1, v)`. -/
def State.memWrite (s : State) (addr : Nat) (v : Byte) : Except Raised State :=
  if addr < memSize then .ok { s with mem := Memory.write s.mem addr v }
  else .error { code := .memIndex, info := addr }

/-- `out(v)`: append to the output history (42_move_output.md rule R122). -/
def State.emit (s : State) (v : Byte) : State := { s with out := s.out ++ [v] }

/-! ### The dispatch result (40_dispatch.md rules R84 and R85) -/

/-- What an instruction hands back to the loop (40_dispatch.md rule R84). -/
inductive DispatchResult where
  | advance (n : Nat)
  | jump (target : Byte)
  | halt
  deriving DecidableEq, Repr

/-- The pc and run update (40_dispatch.md rule R85): an advance does not wrap, a jump is absolute, a
halt leaves pc as it is. -/
def State.applyResult (s : State) : DispatchResult → State
  | .advance n => { s with pc := s.pc + n }
  | .jump target => { s with pc := target.toNat }
  | .halt => { s with run := .halted }

/-- How a step ends for an instruction's body (40_dispatch.md rules R80 and R87): its writes and its
dispatch result together, or, where a check raised, none of its writes and the error. -/
def State.conclude (s : State) (body : Except Raised (State × DispatchResult)) :
    Host.Outcome State Fault Refusal :=
  match body with
  | .ok (t, r) => .next (t.applyResult r)
  | .error e => .next (s.takeError e)

/-- An unknown opcode (40_dispatch.md rule R86): advance by one with no other effect, or raise
UNSUPPORTED_OPCODE. -/
def State.unknownOpcode (s : State) (op : Byte) : Host.Outcome State Fault Refusal :=
  match s.params.unknownOpcodePolicy with
  | .permissive => s.conclude (.ok (s, .advance 1))
  | .strict => s.conclude (.error { code := .unsupportedOpcode, info := op.toNat })

/-- The bytes a step fetches: the opcode at pc and the operand window after it, less those beyond
memory (40_dispatch.md rules R81 and R82). -/
def State.fetchBytes (s : State) : List Byte := Memory.bytesAt s.mem s.pc maxInsnLen

end Sys2Proof.Machine
end

