-- ==== Sys2Proof/Machine/Operands.lean ====
section
/-! DEFINITION. The operand forms: a register index and an immediate byte, each a byte of the operand
window checked when it is referenced (10_state.md rule R24, 30_encoding.md rules R63 and R64,
40_dispatch.md rules R82 and R88). -/

namespace Sys2Proof.Machine

/-- `opnd(k)`: the window byte at pc+k, or MEM_INDEX where it is ABSENT (40_dispatch.md rule R82). -/
def State.opnd (s : State) (k : Nat) : WindowByte → Except Raised Byte
  | .byte v => .ok v
  | .absent => .error { code := .memIndex, info := s.pc + k }

/-- `reg(i)`: the whole byte as an index, or REG_INDEX where it is 8 or more (10_state.md rule
R24). -/
def checkRegIndex (v : Byte) : Except Raised (Fin nRegs) :=
  if h : v.toNat < nRegs then .ok ⟨v.toNat, h⟩
  else .error { code := .regIndex, info := v.toNat }

/-- `reg(opnd(k))`: the operand byte first, then its index (40_dispatch.md rule R88). -/
def State.regOperand (s : State) (k : Nat) (w : WindowByte) : Except Raised (Fin nRegs) := do
  let v ← s.opnd k w
  checkRegIndex v

end Sys2Proof.Machine
end

