-- ==== Sys2Proof/Machine/Alu.lean ====
section
/-! DEFINITION. The ALU instructions (41_alu.md): ADD, MUL and CMP, and SUB, DIV, AND, OR and XOR under
ALU_EXT. Operands and results are unsigned 8-bit values; there is no carry, overflow, sign or zero
flag (rule R100). -/

namespace Sys2Proof.Machine

/-! ### The arithmetic, computed exactly and then reduced modulo 256 -/

/-- (va + vb) mod 256 (41_alu.md rule R101). -/
def aluAdd (va vb : Byte) : Byte := BitVec.ofNat 8 (va.toNat + vb.toNat)

/-- (va * vb) mod 256, the low half of the product (41_alu.md rule R102). -/
def aluMul (va vb : Byte) : Byte := BitVec.ofNat 8 (va.toNat * vb.toNat)

/-- (va - vb) mod 256 (41_alu.md rule R104). -/
def aluSub (va vb : Byte) : Byte := BitVec.ofInt 8 ((va.toNat : Int) - (vb.toNat : Int))

/-- floor(va / vb), for vb not 0 (41_alu.md rule R105). -/
def aluDiv (va vb : Byte) : Byte := BitVec.ofNat 8 (va.toNat / vb.toNat)

/-! ### The shared shape of the family (41_alu.md rule R100) -/

/-- The two register operands of format F2RR, in check order (40_dispatch.md rule R88). -/
def State.regPair (s : State) (a b : WindowByte) : Except Raised (Fin nRegs × Fin nRegs) := do
  let ia ← s.regOperand 1 a
  let ib ← s.regOperand 2 b
  pure (ia, ib)

/-- `x[ia] <- f x[ia] x[ib]`, both read before the write, then Advance(3). -/
def State.aluBinary (s : State) (f : Byte → Byte → Byte) (a b : WindowByte) :
    Except Raised (State × DispatchResult) := do
  let (ia, ib) ← s.regPair a b
  pure (s.setReg ia (f (s.reg ia) (s.reg ib)), .advance 3)

/-- What ALU_EXT makes of one of the five extension bytes (00_scope.md rule R9, 41_alu.md rule R109):
LS8 runs it, Unsupported raises before any operand is referenced, Absent treats it as an unknown
opcode (under which the decoder never gives the instruction; log 12). -/
def State.aluExtension (s : State) (op : Byte) (body : Except Raised (State × DispatchResult)) :
    Host.Outcome State Fault Refusal :=
  match s.params.aluExt with
  | .ls8 => s.conclude body
  | .unsupported => s.conclude (.error { code := .unsupportedAluOp, info := op.toNat })
  | .absent => s.unknownOpcode op

/-! ### The meanings -/

/-- ADD (41_alu.md rule R101). -/
def execAdd (a b : WindowByte) (s : State) : Host.Outcome State Fault Refusal :=
  s.conclude (s.aluBinary aluAdd a b)

/-- MUL (41_alu.md rule R102). -/
def execMul (a b : WindowByte) (s : State) : Host.Outcome State Fault Refusal :=
  s.conclude (s.aluBinary aluMul a b)

/-- CMP (41_alu.md rule R103): FL is replaced whole; no register is written. -/
def execCmp (a b : WindowByte) (s : State) : Host.Outcome State Fault Refusal :=
  s.conclude do
    let (ia, ib) ← s.regPair a b
    pure ({ s with fl := compareFlags (s.reg ia) (s.reg ib) }, .advance 3)

/-- SUB (41_alu.md rule R104). -/
def execSub (a b : WindowByte) (s : State) : Host.Outcome State Fault Refusal :=
  s.aluExtension opSUB (s.aluBinary aluSub a b)

/-- DIV (41_alu.md rule R105): a divisor register that holds 0 raises, after the operand checks, with
the divisor's register index. -/
def execDiv (a b : WindowByte) (s : State) : Host.Outcome State Fault Refusal :=
  s.aluExtension opDIV do
    let (ia, ib) ← s.regPair a b
    if s.reg ib = 0 then throw { code := .divideByZero, info := ib.val }
    else pure (s.setReg ia (aluDiv (s.reg ia) (s.reg ib)), .advance 3)

/-- AND (41_alu.md rule R106). -/
def execAnd (a b : WindowByte) (s : State) : Host.Outcome State Fault Refusal :=
  s.aluExtension opAND (s.aluBinary (fun va vb => va &&& vb) a b)

/-- OR (41_alu.md rule R107). -/
def execOr (a b : WindowByte) (s : State) : Host.Outcome State Fault Refusal :=
  s.aluExtension opOR (s.aluBinary (fun va vb => va ||| vb) a b)

/-- XOR (41_alu.md rule R108). -/
def execXor (a b : WindowByte) (s : State) : Host.Outcome State Fault Refusal :=
  s.aluExtension opXOR (s.aluBinary (fun va vb => va ^^^ vb) a b)

end Sys2Proof.Machine
end

