-- ==== Sys2Proof/Machine/Control.lean ====
section
/-! DEFINITION. The control transfers (44_control.md): an absolute jump to a register's value. A
branch that is not taken references no operand (rules R141 and R142). -/

namespace Sys2Proof.Machine

/-- `return Jump(x[reg(opnd(1))])` (44_control.md rule R140). -/
def State.jumpTo (s : State) (a : WindowByte) : Except Raised (State × DispatchResult) := do
  let ia ← s.regOperand 1 a
  pure (s, .jump (s.reg ia))

/-- JMP (44_control.md rule R140). -/
def execJmp (a : WindowByte) (s : State) : Host.Outcome State Fault Refusal :=
  s.conclude (s.jumpTo a)

/-- JEQ (44_control.md rule R141). -/
def execJeq (a : WindowByte) (s : State) : Host.Outcome State Fault Refusal :=
  s.conclude (if s.flagE then s.jumpTo a else .ok (s, .advance 2))

/-- JNE (44_control.md rule R142). -/
def execJne (a : WindowByte) (s : State) : Host.Outcome State Fault Refusal :=
  s.conclude (if s.flagE then .ok (s, .advance 2) else s.jumpTo a)

end Sys2Proof.Machine
end

