-- ==== Sys2Proof/Machine/Halt.lean ====
section
/-! DEFINITION. The halt (45_halt.md). -/

namespace Sys2Proof.Machine

/-- HLT (45_halt.md rule R150): run becomes Halted, pc stays, no operand is referenced. -/
def execHlt (s : State) : Host.Outcome State Fault Refusal :=
  s.conclude (.ok (s, .halt))

end Sys2Proof.Machine
end

