-- ==== Sys2Proof/Machine/MoveOutput.lean ====
section
/-! DEFINITION. The immediate load and the output (42_move_output.md). -/

namespace Sys2Proof.Machine

/-- LDI (42_move_output.md rule R120): operand byte a, register a, operand byte imm, in that order. -/
def execLdi (a imm : WindowByte) (s : State) : Host.Outcome State Fault Refusal :=
  s.conclude do
    let ia ← s.regOperand 1 a
    let v ← s.opnd 2 imm
    pure (s.setReg ia v, .advance 3)

/-- PRN (42_move_output.md rules R121 and R122). -/
def execPrn (a : WindowByte) (s : State) : Host.Outcome State Fault Refusal :=
  s.conclude do
    let ia ← s.regOperand 1 a
    pure (s.emit (s.reg ia), .advance 2)

end Sys2Proof.Machine
end

