-- ==== Sys2Proof/Machine/Stack.lean ====
section
/-! DEFINITION. The stack instructions (43_stack.md): SP moves down before a push writes and up after
a pop has read; both bounds raise before anything is written (rule R133). -/

namespace Sys2Proof.Machine

/-- PUSH (43_stack.md rule R131): SP is decremented first, and the value written is read after that,
so PUSH R7 writes the decremented SP. -/
def execPush (a : WindowByte) (s : State) : Host.Outcome State Fault Refusal :=
  s.conclude do
    let ia ← s.regOperand 1 a
    if s.sp = 0 then throw { code := .stackOverflow, info := s.sp.toNat }
    else
      let t := s.setReg spIndex (s.sp - 1)
      let u ← t.memWrite t.sp.toNat (t.reg ia)
      pure (u, .advance 2)

/-- POP (43_stack.md rule R132): the register is written first and SP is incremented after that,
modulo 256, so POP R7 leaves the popped value plus one. -/
def execPop (a : WindowByte) (s : State) : Host.Outcome State Fault Refusal :=
  s.conclude do
    let ia ← s.regOperand 1 a
    if s.sp.toNat ≥ stackTop.toNat then throw { code := .stackUnderflow, info := s.sp.toNat }
    else
      let v ← s.memRead s.sp.toNat
      let t := s.setReg ia v
      pure (t.setReg spIndex (t.sp + 1), .advance 2)

end Sys2Proof.Machine
end

