-- ==== Sys2Proof/Machine/Loop.lean ====
section
/-! DEFINITION. One turn of the fetch-decode-execute loop in Running (40_dispatch.md rule R80), and how
`withFetchWord` puts a word where it is fetched. -/

namespace Sys2Proof.Machine

/-- Fetch, decode and execute (40_dispatch.md rules R80 to R83 and R86). There is no byte at pc
exactly where pc is 256 or more, and the fetch then raises MEM_INDEX with that pc (rule R81). -/
def runInstruction (s : State) : Host.Outcome State Fault Refusal :=
  match decode s.params.aluExt s.fetchBytes with
  | .ok i => exec i s
  | .error (.unknownOpcode op) => s.unknownOpcode op
  | .error .noBytes => s.conclude (.error { code := .memIndex, info := s.pc })

/-- The parameters under which a word's opcode byte is in the mapping: an extension byte under
ALU_EXT = Absent needs LS8; every other word leaves them alone (log 7). -/
def paramsForWord (p : Params) (nbits w : Nat) : Params :=
  if p.aluExt = .absent ∧ isExtOpcode (BitVec.ofNat 8 (w % 2 ^ nbits)) then
    { p with aluExt := .ls8 }
  else p

/-- A word placed at pc, in a running machine whose mapping has its opcode (log 7). -/
def placeFetchWord (s : State) (nbits w : Nat) : State :=
  { s with
    mem := Memory.place s.mem s.pc (tableWordBytes nbits w)
    run := .running
    params := paramsForWord s.params nbits w }

end Sys2Proof.Machine
end

