-- ==== Sys2Proof/Machine/Step.lean ====
section
/-! DEFINITION. One step of the machine (40_dispatch.md rules R80 and R89). -/

namespace Sys2Proof.Machine

/-- A step exists only in Running; in Halted and Faulted there is none (40_dispatch.md rule R89). -/
def step (s : State) : Host.Outcome State Fault Refusal :=
  match s.run with
  | .running => Sys2Proof.Machine.runInstruction s
  | .halted => .fault .noStepInHalted
  | .faulted _ => .fault .noStepInFaulted

/-- `s` with a word of the opcode table stored where `step` fetches its next instruction, and what
that fetch needs: see `placeFetchWord` and log 7. -/
def State.withFetchWord (s : State) (nbits w : Nat) : State :=
  Sys2Proof.Machine.placeFetchWord s nbits w

end Sys2Proof.Machine
end

