-- ==== Sys2Proof/Machine/Interface.lean ====
section
/-! DEFINITION. The block's interfaces besides reset and step (10_state.md rule R37): load, status,
output rendering, trace; and the host's program text and instruction syntax (30_encoding.md rules R70
and R71). None of them is called by `step`. -/

namespace Sys2Proof.Machine

/-! ### Load (70_reset_and_hazards.md rule R191) -/

/-- `MemWrite(addr, 1, b)` for each byte in order, from `addr` upward. The write at address 256 raises
MEM_INDEX (log 8). -/
def State.loadFrom (s : State) (addr : Nat) : List Byte → State
  | [] => s
  | b :: bs =>
    match s.memWrite addr b with
    | .ok t => State.loadFrom t (addr + 1) bs
    | .error e => s.takeError e

/-- The load interface: a program's bytes from LOAD_BASE upward, after reset and before the first step
(70_reset_and_hazards.md rule R191). -/
def State.load (s : State) (program : List Byte) : State := s.loadFrom loadBase program

/-- LOAD_ERROR: the run is Faulted before any step, and the block holds no information
(60_exceptions.md rules R161 and R166; log 9). -/
def State.takeLoadError (s : State) : State :=
  { s with run := .faulted { code := .loadError, pc := s.pc, info := none } }

/-! ### The host's program text (30_encoding.md rule R71) -/

/-- A binary digit's value. -/
def binaryDigit : Char → Option Nat
  | '0' => some 0
  | '1' => some 1
  | _ => none

/-- A binary numeral, most significant digit first. -/
def binaryNumeral (acc : Nat) : List Char → Option Nat
  | [] => some acc
  | c :: cs =>
    match binaryDigit c with
    | some d => binaryNumeral (2 * acc + d) cs
    | none => none

/-- A line without its trailing comment. -/
def stripComment : List Char → List Char
  | [] => []
  | c :: cs => if c = '#' then [] else c :: stripComment cs

/-- Whether a line, its comment stripped, holds an instruction byte: it starts with 0 or 1. -/
def isCodeLine : List Char → Bool
  | [] => false
  | c :: _ => (binaryDigit c).isSome

/-- The byte of a line that holds one: its leading 8 characters (log 10 for a shorter line). -/
def lineByte (line : List Char) : Option Byte :=
  if line.length < 8 then none
  else (binaryNumeral 0 (line.take 8)).map (BitVec.ofNat 8)

/-- The lines of a text. -/
def textLines (line : List Char) : List Char → List (List Char)
  | [] => [line]
  | c :: cs => if c = '\n' then line :: textLines [] cs else textLines (line ++ [c]) cs

/-- The bytes of a list of lines, or nothing where a line cannot be parsed. -/
def linesBytes : List (List Char) → Option (List Byte)
  | [] => some []
  | l :: ls =>
    if isCodeLine (stripComment l) then
      match lineByte (stripComment l), linesBytes ls with
      | some b, some bs => some (b :: bs)
      | _, _ => none
    else linesBytes ls

/-- The host's loader: a missing program (`none`) or one that cannot be parsed is a LOAD_ERROR,
otherwise its bytes are loaded (30_encoding.md rule R71, 60_exceptions.md rule R166). DESIGN CHOICE
(log 16): the whole text is parsed before any byte is loaded, so a line that cannot be parsed leaves
memory unwritten whatever stands before it, and LOAD_ERROR is recorded, not MEM_INDEX, where the text
also has more than 256 bytes. -/
def State.loadText (s : State) (text : Option (List Char)) : State :=
  match text.bind fun cs => linesBytes (textLines [] cs) with
  | some program => s.load program
  | none => s.takeLoadError

/-! ### Output and status -/

/-- How the host renders one output value: unsigned decimal and a newline (42_move_output.md rule
R122). -/
def renderOutput (v : Byte) : List Char := Nat.toDigits 10 v.toNat ++ ['\n']

/-- An exit status: the spec fixes no particular non-zero value (60_exceptions.md rule R170; log 11). -/
inductive ExitStatus where
  | zero
  | nonZero
  deriving DecidableEq, Repr

/-- The exit status of a finished run (45_halt.md rule R152, 60_exceptions.md rule R170); a running
machine has none. -/
def exitStatus : RunState → Option ExitStatus
  | .running => none
  | .halted => some .zero
  | .faulted _ => some .nonZero

/-- How a finished run ends for the host: the exit status, and the diagnostic by what it names, the
fault record (60_exceptions.md rule R170); its text is not fixed (log 11). -/
structure HostEnd where
  status : ExitStatus
  diagnostic : Option FaultRecord
  deriving DecidableEq, Repr

/-- What the diagnostic of a run names: the record of a Faulted run (60_exceptions.md rule R170). -/
def diagnosticRecord : RunState → Option FaultRecord
  | .running => none
  | .halted => none
  | .faulted r => some r

/-- The end of a run as the host sees it (45_halt.md rule R152, 60_exceptions.md rule R170); a running
machine has none. -/
def hostEnd (run : RunState) : Option HostEnd :=
  (exitStatus run).map fun status => { status := status, diagnostic := diagnosticRecord run }

/-! ### Trace (60_exceptions.md rule R175) -/

/-- What the optional trace shows: pc, the three bytes from pc on, the registers. -/
structure Trace where
  pc : Nat
  bytes : List WindowByte
  regs : List Byte
  deriving DecidableEq, Repr

/-- A cell as the trace shows it: absent beyond address 255. -/
def State.shownByte (s : State) (addr : Nat) : WindowByte :=
  if addr < memSize then .byte (Memory.read s.mem addr) else .absent

/-- The trace of a state: an observation that changes nothing and cannot fault (60_exceptions.md rule
R175). -/
def State.trace (s : State) : Trace :=
  { pc := s.pc
    bytes := [s.shownByte s.pc, s.shownByte (s.pc + 1), s.shownByte (s.pc + 2)]
    regs := s.regs.toList }

/-! ### Instruction syntax (30_encoding.md rule R70) -/

/-- `R0` to `R7` (30_encoding.md rule R70). -/
def registerText (w : WindowByte) : List Char :=
  match w with
  | .byte v => 'R' :: Nat.toDigits 10 v.toNat
  | .absent => []

/-- An immediate, in decimal. -/
def immediateText (w : WindowByte) : List Char :=
  match w with
  | .byte v => Nat.toDigits 10 v.toNat
  | .absent => []

/-- The mnemonic of an instruction (30_encoding.md rules R65 and R68). -/
def mnemonicText : Instr → List Char
  | .hlt => ['H', 'L', 'T']
  | .ldi _ _ => ['L', 'D', 'I']
  | .prn _ => ['P', 'R', 'N']
  | .push _ => ['P', 'U', 'S', 'H']
  | .pop _ => ['P', 'O', 'P']
  | .jmp _ => ['J', 'M', 'P']
  | .jeq _ => ['J', 'E', 'Q']
  | .jne _ => ['J', 'N', 'E']
  | .add _ _ => ['A', 'D', 'D']
  | .mul _ _ => ['M', 'U', 'L']
  | .cmp _ _ => ['C', 'M', 'P']
  | .sub _ _ => ['S', 'U', 'B']
  | .div _ _ => ['D', 'I', 'V']
  | .and _ _ => ['A', 'N', 'D']
  | .or _ _ => ['O', 'R']
  | .xor _ _ => ['X', 'O', 'R']

/-- The operands of an instruction as text. -/
def operandTexts : Instr → List (List Char)
  | .hlt => []
  | .ldi a imm => [registerText a, immediateText imm]
  | .prn a => [registerText a]
  | .push a => [registerText a]
  | .pop a => [registerText a]
  | .jmp a => [registerText a]
  | .jeq a => [registerText a]
  | .jne a => [registerText a]
  | .add a b => [registerText a, registerText b]
  | .mul a b => [registerText a, registerText b]
  | .cmp a b => [registerText a, registerText b]
  | .sub a b => [registerText a, registerText b]
  | .div a b => [registerText a, registerText b]
  | .and a b => [registerText a, registerText b]
  | .or a b => [registerText a, registerText b]
  | .xor a b => [registerText a, registerText b]

/-- The text of a well-formed instruction: the mnemonic, a space, the operands separated by a comma
(30_encoding.md rule R70). An ill-formed one has no text. -/
def instructionText (i : Instr) : Option (List Char) :=
  if i.wellFormed then
    some (mnemonicText i ++ (if operandTexts i = [] then [] else ' ' :: [','].intercalate (operandTexts i)))
  else none

end Sys2Proof.Machine
end

