-- ==== Sys2Proof/Safety.lean ====
section
/-! DEFINITION. What counts as a good state and a safe run, and the words the statements use: an
outcome that raises an error, what is kept, a register named by an operand byte. -/

namespace Sys2Proof.Machine

/-! ### The invariant of the machine -/

/-- pc takes values in [0, 0x102] (10_state.md rule R28). -/
def State.pcInRange (s : State) : Bool := decide (s.pc ≤ 0x102)

/-- A fault record tells the truth about the state it ended: pc is the faulting instruction's, and
each code's information is of the kind 60_exceptions.md rule R161 lists, with the condition that
raises it still to be read off the state, which the error left as it was (rule R167). -/
def State.faultRecordSound (s : State) : Bool :=
  match s.run with
  | .running => true
  | .halted => true
  | .faulted r =>
    decide (r.pc = s.pc) &&
    match r.code, r.info with
    | .memIndex, some addr => decide (memSize ≤ addr ∧ addr ≤ 0x102)
    | .regIndex, some v => decide (nRegs ≤ v ∧ v < 256)
    | .stackOverflow, some v => decide (s.sp = 0 ∧ v = 0)
    | .stackUnderflow, some v => decide (stackTop.toNat ≤ s.sp.toNat ∧ v = s.sp.toNat)
    | .unsupportedOpcode, some op =>
      decide (s.params.unknownOpcodePolicy = .strict ∧ op < 256) &&
        (lookupOpcode s.params.aluExt (BitVec.ofNat 8 op)).isNone
    | .unsupportedAluOp, some op =>
      decide (s.params.aluExt = .unsupported ∧ op < 256) && isExtOpcode (BitVec.ofNat 8 op)
    | .divideByZero, some i =>
      decide (s.params.aluExt = .ls8) && if h : i < nRegs then decide (s.reg ⟨i, h⟩ = 0) else false
    | .loadError, none => true
    | _, _ => false

/-- The invariant: memory is in canonical form, pc is in its range (10_state.md rule R28), FL is
legal (rule R31), and a fault record is sound (60_exceptions.md rules R161 and R167). -/
def State.inv (s : State) : Bool :=
  Memory.wf s.mem && s.pcInRange && legalFlags s.fl && s.faultRecordSound

/-- A run is safe while no error has ended it (00_scope.md rule R14, fatal error). -/
def State.faultFree (s : State) : Bool :=
  match s.run with
  | .running => true
  | .halted => true
  | .faulted _ => false

/-! ### The words of the statements -/

/-- The operand byte that names register i. -/
def regOpnd (i : Fin nRegs) : WindowByte := .byte (BitVec.ofNat 8 i.val)

/-- The opcode byte a step reads: the cell at pc (40_dispatch.md rule R81). -/
def State.opcodeByte (s : State) : Byte := Memory.read s.mem s.pc

/-- The outcome is the error entry with this code and information, and nothing else is changed
(60_exceptions.md rule R167). -/
def Raises (s : State) (o : Host.Outcome State Fault Refusal) (code : ErrorCode) (info : Nat) : Prop :=
  o = .next { s with run := .faulted { code := code, pc := s.pc, info := some info } }

/-- Every register but those listed is unchanged. -/
def KeepsRegistersExcept (s : State) (ds : List (Fin nRegs)) (t : State) : Prop :=
  ∀ i, i ∉ ds → t.reg i = s.reg i

/-- Every byte of memory reads as before. -/
def KeepsMemory (s t : State) : Prop :=
  ∀ addr, Memory.read t.mem addr = Memory.read s.mem addr

/-- Run state, output history and parameters are unchanged. -/
def KeepsRunOutputParams (s t : State) : Prop :=
  t.run = s.run ∧ t.out = s.out ∧ t.params = s.params

/-- The errors of a first operand that is a register, whatever else the instruction checks later
(40_dispatch.md rule R88): an ABSENT byte, then an index of 8 or more. -/
def RaisesOnBadOperandA (s : State) (run : WindowByte → Host.Outcome State Fault Refusal) : Prop :=
  Raises s (run .absent) .memIndex (s.pc + 1) ∧
    ∀ v : Byte, 8 ≤ v.toNat → Raises s (run (.byte v)) .regIndex v.toNat

/-- The errors of two register operands in the order of 40_dispatch.md rule R88: byte a, register a,
byte b, register b. -/
def RaisesOnBadOperandPair (s : State)
    (run : WindowByte → WindowByte → Host.Outcome State Fault Refusal) : Prop :=
  (∀ b, RaisesOnBadOperandA s fun a => run a b) ∧
    ∀ i : Fin nRegs, Raises s (run (regOpnd i) .absent) .memIndex (s.pc + 2) ∧
      ∀ v : Byte, 8 ≤ v.toNat → Raises s (run (regOpnd i) (.byte v)) .regIndex v.toNat

/-- A byte as 8 binary digits, most significant first (30_encoding.md rule R71). -/
def binaryText (b : Byte) : List Char :=
  [7, 6, 5, 4, 3, 2, 1, 0].map fun k => if b.getLsbD k then '1' else '0'

/-- A line of a program text: one that gives a byte, with whatever follows the byte's digits, or one
that is ignored (30_encoding.md rule R71). -/
inductive TextLine where
  | byte (b : Byte) (tail : List Char)
  | ignored (line : List Char)
  deriving DecidableEq, Repr

/-- The characters of a line. -/
def TextLine.chars : TextLine → List Char
  | .byte b tail => binaryText b ++ tail
  | .ignored line => line

/-- The byte a line gives. -/
def TextLine.byte? : TextLine → Option Byte
  | .byte b _ => some b
  | .ignored _ => none

/-- A line that starts with 0 or 1, before or after its comment is stripped (30_encoding.md rule R71). -/
def StartsWithBinary (line : List Char) : Prop :=
  line.head? = some '0' ∨ line.head? = some '1'

/-- Lines as one text: a newline between each and the next. -/
def joinLines (lines : List (List Char)) : List Char := ['\n'].intercalate lines

end Sys2Proof.Machine
end

