-- ==== Sys2Proof/Certificates/Slice0/Obligations.lean ====
section
/-! DEFINITION. The statements for the provers. Each docstring names the rule it formalises; "decision
D<n>" is the spec's own (92_eei_decisions.md), inside the cited rule. -/

open Sys2Proof Sys2Proof.Machine

/-! ### Reset (10_state.md, 70_reset_and_hazards.md) -/

/-- 10_state.md rule R38: the state after reset. R0 to R6 = 0 is the spec's decision D4. -/
def Obligations.ResetLeavesTheListedState : Prop :=
  (∀ i : Fin nRegs, i ≠ 7 → State.reset.reg i = 0) ∧ State.reset.reg 7 = 0xF4 ∧
    State.reset.pc = 0 ∧ State.reset.fl = 0b000 ∧
    (∀ addr, addr < 256 → Memory.read State.reset.mem addr = 0) ∧
    State.reset.run = .running ∧ State.reset.out = []

/-- 70_reset_and_hazards.md rule R190: reset applied in any state, Halted and Faulted included, puts
every piece of state to its reset value, and no step leaves Halted or Faulted. R0 to R6 = 0 is the
spec's decision D4. -/
def Obligations.ResetLeavesAnyState : Prop :=
  ∀ s : State, (∀ i : Fin nRegs, i ≠ 7 → s.applyReset.reg i = 0) ∧ s.applyReset.reg 7 = 0xF4 ∧
    s.applyReset.pc = 0 ∧ s.applyReset.fl = 0b000 ∧
    (∀ addr, Memory.read s.applyReset.mem addr = 0) ∧
    s.applyReset.run = .running ∧ s.applyReset.out = [] ∧
    (s.run ≠ .running → ∀ t, step s ≠ .next t)

/-- The machine's invariant holds after reset. -/
def Obligations.InvariantHoldsAtReset : Prop :=
  ∀ p : Params, (State.resetWith p).inv = true

/-- From every state that meets it, reached or not, a step keeps the invariant: memory in canonical
form, pc in [0, 0x102], FL legal, and a fault record that tells the truth about the state it ended
(10_state.md rules R28, R31, R33; 60_exceptions.md rules R161, R167). -/
def Obligations.InvariantKeptByEveryStep : Prop :=
  ∀ s t : State, s.inv = true → step s = .next t → t.inv = true

/-! ### Encoding (30_encoding.md) -/

/-- Every well-formed instruction of the mapping in force is read back from its own bytes, whatever
bytes follow (30_encoding.md rules R60 to R65, R68). -/
def Obligations.DecodeOfEncodeIsTheInstruction : Prop :=
  ∀ (ext : AluExt) (i : Instr) (rest : List Byte), i.wellFormed = true → i.inMapping ext = true →
    decode ext (encode i ++ rest) = .ok i

/-- Bytes that decode to a well-formed instruction begin with that instruction's own encoding, so a
word has one meaning and an instruction one encoding (30_encoding.md rules R60, R61, R65, R68). -/
def Obligations.DecodedBytesBeginWithTheEncoding : Prop :=
  ∀ (ext : AluExt) (bytes : List Byte) (i : Instr), decode ext bytes = .ok i → i.wellFormed = true →
    i.inMapping ext = true ∧ ∃ rest, bytes = encode i ++ rest

/-- 30_encoding.md rule R62: a window byte beyond the instruction's length has no effect on what is
decoded. The lengths are those of rule R65's table. -/
def Obligations.WindowBytesBeyondTheLengthAreNotReferenced : Prop :=
  ∀ (ext : AluExt) (op a : Byte) (w w' : List Byte),
    (op = 0x01 → decode ext (op :: w) = decode ext (op :: w')) ∧
    (op ∈ [0x47, 0x45, 0x46, 0x54, 0x55, 0x56] →
      decode ext (op :: a :: w) = decode ext (op :: a :: w'))

/-- 30_encoding.md rule R67: how many opcode bytes are unknown, and that 0x00 and
the public LS-8 opcodes outside the block's set are among them. -/
def Obligations.OpcodeMapIsClosed : Prop :=
  ((List.range 256).filter fun n => (lookupOpcode .absent (BitVec.ofNat 8 n)).isNone).length = 245 ∧
    (∀ ext, ext ≠ .absent →
      ((List.range 256).filter fun n => (lookupOpcode ext (BitVec.ofNat 8 n)).isNone).length = 240) ∧
    ∀ ext, ∀ op ∈ [0x00, 0x11, 0x13, 0x50, 0x52, 0x57, 0x58, 0x59, 0x5A, 0x48, 0x65, 0x66, 0x69, 0x83,
      0x84, 0xA4, 0xAC, 0xAD], (lookupOpcode ext op).isNone = true

/-- A sanity statement: words written out bit by bit from 30_encoding.md rules R61, R65 and R68, one
of each family, decode to the instruction they stand for. -/
def Obligations.WrittenOutWordsDecode : Prop :=
  decode .absent [0b00000001] = .ok .hlt ∧
    decode .absent [0b10000010, 0b00000101, 0b11111111] = .ok (.ldi (.byte 5) (.byte 255)) ∧
    decode .absent [0b01000101, 0b00000011] = .ok (.push (.byte 3)) ∧
    decode .absent [0b01010101, 0b00000010] = .ok (.jeq (.byte 2)) ∧
    decode .absent [0b10100111, 0b00000001, 0b00000110] = .ok (.cmp (.byte 1) (.byte 6)) ∧
    decode .ls8 [0b10101011, 0b00000100, 0b00000111] = .ok (.xor (.byte 4) (.byte 7)) ∧
    decode .absent [0b10101011, 0b00000100, 0b00000111] = .error (.unknownOpcode 0b10101011)

/-! ### ALU (41_alu.md) -/

/-- 41_alu.md rule R101, whole: the encoding, the sum modulo 256, the advance, the frame, the errors
and their order (decision D12). -/
def Obligations.AddWritesSumModulo256 : Prop :=
  ∀ s : State,
    (∀ i j : Fin nRegs, ∃ t, exec (.add (regOpnd i) (regOpnd j)) s = .next t ∧
      (t.reg i).toNat = ((s.reg i).toNat + (s.reg j).toNat) % 256 ∧ t.pc = s.pc + 3 ∧
      KeepsRegistersExcept s [i] t ∧ t.fl = s.fl ∧ KeepsMemory s t ∧ KeepsRunOutputParams s t) ∧
    RaisesOnBadOperandPair s (fun a b => exec (.add a b) s) ∧
    ∀ ext a b rest, decode ext (0xA0 :: a :: b :: rest) = .ok (.add (.byte a) (.byte b))

/-- 41_alu.md rule R102, whole: the low 8 bits of the unsigned product. -/
def Obligations.MulWritesProductModulo256 : Prop :=
  ∀ s : State,
    (∀ i j : Fin nRegs, ∃ t, exec (.mul (regOpnd i) (regOpnd j)) s = .next t ∧
      (t.reg i).toNat = ((s.reg i).toNat * (s.reg j).toNat) % 256 ∧ t.pc = s.pc + 3 ∧
      KeepsRegistersExcept s [i] t ∧ t.fl = s.fl ∧ KeepsMemory s t ∧ KeepsRunOutputParams s t) ∧
    RaisesOnBadOperandPair s (fun a b => exec (.mul a b) s) ∧
    ∀ ext a b rest, decode ext (0xA2 :: a :: b :: rest) = .ok (.mul (.byte a) (.byte b))

/-- 41_alu.md rule R103, whole: FL is replaced by the one bit of an unsigned comparison, whatever it
was; no register is written. -/
def Obligations.CmpReplacesFlWithOneBit : Prop :=
  ∀ s : State,
    (∀ i j : Fin nRegs, ∃ t, exec (.cmp (regOpnd i) (regOpnd j)) s = .next t ∧
      ((s.reg i).toNat < (s.reg j).toNat → t.fl = 0b100) ∧
      ((s.reg i).toNat > (s.reg j).toNat → t.fl = 0b010) ∧
      ((s.reg i).toNat = (s.reg j).toNat → t.fl = 0b001) ∧ t.pc = s.pc + 3 ∧
      KeepsRegistersExcept s [] t ∧ KeepsMemory s t ∧ KeepsRunOutputParams s t) ∧
    RaisesOnBadOperandPair s (fun a b => exec (.cmp a b) s) ∧
    ∀ ext a b rest, decode ext (0xA7 :: a :: b :: rest) = .ok (.cmp (.byte a) (.byte b))

/-- 41_alu.md rule R104, whole, under ALU_EXT = LS8 (decision D3): the difference modulo 256. -/
def Obligations.SubWritesDifferenceModulo256 : Prop :=
  ∀ s : State, s.params.aluExt = .ls8 →
    (∀ i j : Fin nRegs, ∃ t, exec (.sub (regOpnd i) (regOpnd j)) s = .next t ∧
      ((t.reg i).toNat : Int) = (((s.reg i).toNat : Int) - ((s.reg j).toNat : Int)) % 256 ∧
      t.pc = s.pc + 3 ∧
      KeepsRegistersExcept s [i] t ∧ t.fl = s.fl ∧ KeepsMemory s t ∧ KeepsRunOutputParams s t) ∧
    RaisesOnBadOperandPair s (fun a b => exec (.sub a b) s) ∧
    ∀ a b rest, decode .ls8 (0xA1 :: a :: b :: rest) = .ok (.sub (.byte a) (.byte b))

/-- 41_alu.md rule R105, whole, under ALU_EXT = LS8 (decisions D3 and D18): the unsigned quotient,
and DIVIDE_BY_ZERO with the divisor's index where the divisor holds 0. -/
def Obligations.DivWritesQuotientOrRaises : Prop :=
  ∀ s : State, s.params.aluExt = .ls8 →
    (∀ i j : Fin nRegs, (s.reg j).toNat ≠ 0 → ∃ t, exec (.div (regOpnd i) (regOpnd j)) s = .next t ∧
      (t.reg i).toNat = (s.reg i).toNat / (s.reg j).toNat ∧ t.pc = s.pc + 3 ∧
      KeepsRegistersExcept s [i] t ∧ t.fl = s.fl ∧ KeepsMemory s t ∧ KeepsRunOutputParams s t) ∧
    (∀ i j : Fin nRegs, (s.reg j).toNat = 0 →
      Raises s (exec (.div (regOpnd i) (regOpnd j)) s) .divideByZero j.val) ∧
    RaisesOnBadOperandPair s (fun a b => exec (.div a b) s) ∧
    ∀ a b rest, decode .ls8 (0xA3 :: a :: b :: rest) = .ok (.div (.byte a) (.byte b))

/-- 41_alu.md rule R106, whole, under ALU_EXT = LS8 (decision D3): bit by bit AND. -/
def Obligations.AndWritesBitwiseAnd : Prop :=
  ∀ s : State, s.params.aluExt = .ls8 →
    (∀ i j : Fin nRegs, ∃ t, exec (.and (regOpnd i) (regOpnd j)) s = .next t ∧
      (∀ k, (t.reg i).getLsbD k = ((s.reg i).getLsbD k && (s.reg j).getLsbD k)) ∧ t.pc = s.pc + 3 ∧
      KeepsRegistersExcept s [i] t ∧ t.fl = s.fl ∧ KeepsMemory s t ∧ KeepsRunOutputParams s t) ∧
    RaisesOnBadOperandPair s (fun a b => exec (.and a b) s) ∧
    ∀ a b rest, decode .ls8 (0xA8 :: a :: b :: rest) = .ok (.and (.byte a) (.byte b))

/-- 41_alu.md rule R107, whole, under ALU_EXT = LS8 (decision D3): bit by bit OR. -/
def Obligations.OrWritesBitwiseOr : Prop :=
  ∀ s : State, s.params.aluExt = .ls8 →
    (∀ i j : Fin nRegs, ∃ t, exec (.or (regOpnd i) (regOpnd j)) s = .next t ∧
      (∀ k, (t.reg i).getLsbD k = ((s.reg i).getLsbD k || (s.reg j).getLsbD k)) ∧ t.pc = s.pc + 3 ∧
      KeepsRegistersExcept s [i] t ∧ t.fl = s.fl ∧ KeepsMemory s t ∧ KeepsRunOutputParams s t) ∧
    RaisesOnBadOperandPair s (fun a b => exec (.or a b) s) ∧
    ∀ a b rest, decode .ls8 (0xAA :: a :: b :: rest) = .ok (.or (.byte a) (.byte b))

/-- 41_alu.md rule R108, whole, under ALU_EXT = LS8 (decision D3): bit by bit exclusive OR. -/
def Obligations.XorWritesBitwiseXor : Prop :=
  ∀ s : State, s.params.aluExt = .ls8 →
    (∀ i j : Fin nRegs, ∃ t, exec (.xor (regOpnd i) (regOpnd j)) s = .next t ∧
      (∀ k, (t.reg i).getLsbD k = ((s.reg i).getLsbD k ^^ (s.reg j).getLsbD k)) ∧ t.pc = s.pc + 3 ∧
      KeepsRegistersExcept s [i] t ∧ t.fl = s.fl ∧ KeepsMemory s t ∧ KeepsRunOutputParams s t) ∧
    RaisesOnBadOperandPair s (fun a b => exec (.xor a b) s) ∧
    ∀ a b rest, decode .ls8 (0xAB :: a :: b :: rest) = .ok (.xor (.byte a) (.byte b))

/-- 41_alu.md rule R109: under ALU_EXT = Unsupported the five extension bytes are in the mapping and
each raises UNSUPPORTED_ALU_OP with its opcode byte, before any operand is referenced; under Absent
and LS8 no step raises it. -/
def Obligations.UnsupportedAluOperationRaises : Prop :=
  (∀ s : State, s.run = .running → s.pc < 256 → s.params.aluExt = .unsupported →
    s.opcodeByte ∈ [0xA1, 0xA3, 0xA8, 0xAA, 0xAB] →
    Raises s (step s) .unsupportedAluOp s.opcodeByte.toNat) ∧
  ∀ (s t : State) (r : FaultRecord), s.params.aluExt ≠ .unsupported → step s = .next t →
    t.run = .faulted r → r.code ≠ .unsupportedAluOp

/-! ### Immediate load and output (42_move_output.md) -/

/-- 42_move_output.md rule R120, whole: the register takes the immediate unchanged. -/
def Obligations.LdiWritesTheImmediate : Prop :=
  ∀ s : State,
    (∀ (i : Fin nRegs) (imm : Byte), ∃ t, exec (.ldi (regOpnd i) (.byte imm)) s = .next t ∧
      t.reg i = imm ∧ t.pc = s.pc + 3 ∧
      KeepsRegistersExcept s [i] t ∧ t.fl = s.fl ∧ KeepsMemory s t ∧ KeepsRunOutputParams s t) ∧
    (∀ imm, RaisesOnBadOperandA s fun a => exec (.ldi a imm) s) ∧
    (∀ i : Fin nRegs, Raises s (exec (.ldi (regOpnd i) .absent) s) .memIndex (s.pc + 2)) ∧
    ∀ ext a imm rest, decode ext (0x82 :: a :: imm :: rest) = .ok (.ldi (.byte a) (.byte imm))

/-- 42_move_output.md rules R121 and R122: the register's value is appended to the output history; on
an error nothing is emitted. -/
def Obligations.PrnAppendsTheRegister : Prop :=
  ∀ s : State,
    (∀ i : Fin nRegs, ∃ t, exec (.prn (regOpnd i)) s = .next t ∧
      t.out = s.out ++ [s.reg i] ∧ t.pc = s.pc + 2 ∧
      KeepsRegistersExcept s [] t ∧ t.fl = s.fl ∧ KeepsMemory s t ∧ t.run = s.run ∧
      t.params = s.params) ∧
    RaisesOnBadOperandA s (fun a => exec (.prn a) s) ∧
    ∀ ext a rest, decode ext (0x47 :: a :: rest) = .ok (.prn (.byte a))

/-! ### Stack (43_stack.md) -/

/-- 43_stack.md rules R131 and R133 for PUSH (decisions D8, D9, D12): SP moves down by one and the
register's value, the decremented SP for R7, stands at the new SP; with SP = 0 STACK_OVERFLOW. -/
def Obligations.PushStoresBelowSp : Prop :=
  ∀ s : State, Memory.wf s.mem = true →
    (∀ i : Fin nRegs, (s.reg 7).toNat ≠ 0 → ∃ t, exec (.push (regOpnd i)) s = .next t ∧
      (t.reg 7).toNat = (s.reg 7).toNat - 1 ∧
      Memory.read t.mem ((s.reg 7).toNat - 1) = (if i = 7 then s.reg 7 - 1 else s.reg i) ∧
      (∀ addr, addr ≠ (s.reg 7).toNat - 1 → Memory.read t.mem addr = Memory.read s.mem addr) ∧
      t.pc = s.pc + 2 ∧ KeepsRegistersExcept s [7] t ∧ t.fl = s.fl ∧ KeepsRunOutputParams s t) ∧
    (∀ i : Fin nRegs, (s.reg 7).toNat = 0 → Raises s (exec (.push (regOpnd i)) s) .stackOverflow 0) ∧
    RaisesOnBadOperandA s (fun a => exec (.push a) s) ∧
    ∀ ext a rest, decode ext (0x45 :: a :: rest) = .ok (.push (.byte a))

/-- 43_stack.md rules R132 and R133 for POP (decisions D8, D9, D12): the cell at SP goes to the
register, then SP moves up by one; R7 itself ends as the popped value plus one modulo 256; with SP at
or above 0xF4 STACK_UNDERFLOW. -/
def Obligations.PopLoadsFromSp : Prop :=
  ∀ s : State,
    (∀ i : Fin nRegs, (s.reg 7).toNat < 0xF4 → ∃ t, exec (.pop (regOpnd i)) s = .next t ∧
      (i ≠ 7 → t.reg i = Memory.read s.mem (s.reg 7).toNat ∧
        (t.reg 7).toNat = (s.reg 7).toNat + 1) ∧
      (i = 7 → (t.reg 7).toNat = ((Memory.read s.mem (s.reg 7).toNat).toNat + 1) % 256) ∧
      t.pc = s.pc + 2 ∧ KeepsRegistersExcept s [i, 7] t ∧ t.fl = s.fl ∧ KeepsMemory s t ∧
      KeepsRunOutputParams s t) ∧
    (∀ i : Fin nRegs, 0xF4 ≤ (s.reg 7).toNat →
      Raises s (exec (.pop (regOpnd i)) s) .stackUnderflow (s.reg 7).toNat) ∧
    RaisesOnBadOperandA s (fun a => exec (.pop a) s) ∧
    ∀ ext a rest, decode ext (0x46 :: a :: rest) = .ok (.pop (.byte a))

/-- The round trip of 43_stack.md rule R133, which the spec marks as its own inference: a PUSH and
then a POP to another register gives the value back, and SP returns. -/
def Obligations.PushThenPopRoundTrips : Prop :=
  ∀ (s t : State) (i j : Fin nRegs), Memory.wf s.mem = true → i ≠ 7 → j ≠ 7 →
    0 < (s.reg 7).toNat → (s.reg 7).toNat ≤ 0xF4 → exec (.push (regOpnd i)) s = .next t →
    ∃ u, exec (.pop (regOpnd j)) t = .next u ∧ u.reg j = s.reg i ∧ u.reg 7 = s.reg 7 ∧
      KeepsRegistersExcept s [j] u ∧ u.pc = s.pc + 4

/-- 20_memory.md rule R50 for PUSH: the byte it stores at the address the next step fetches from is
that step's opcode byte. -/
def Obligations.PushIsSeenByTheNextFetch : Prop :=
  ∀ (s t : State) (i : Fin nRegs), Memory.wf s.mem = true → i ≠ 7 → 0 < (s.reg 7).toNat →
    (s.reg 7).toNat = s.pc + 3 → exec (.push (regOpnd i)) s = .next t →
    t.fetchBytes.head? = some (s.reg i)

/-! ### Control transfer (44_control.md) -/

/-- 44_control.md rule R140, whole: pc takes the register's value and nothing else changes. -/
def Obligations.JmpSetsPcToTheRegister : Prop :=
  ∀ s : State,
    (∀ i : Fin nRegs, ∃ t, exec (.jmp (regOpnd i)) s = .next t ∧ t.pc = (s.reg i).toNat ∧
      KeepsRegistersExcept s [] t ∧ t.fl = s.fl ∧ KeepsMemory s t ∧ KeepsRunOutputParams s t) ∧
    RaisesOnBadOperandA s (fun a => exec (.jmp a) s) ∧
    ∀ ext a rest, decode ext (0x54 :: a :: rest) = .ok (.jmp (.byte a))

/-- 44_control.md rule R141, whole: with the Equal bit set as JMP, otherwise an advance by 2 whatever
the operand byte is, ABSENT included (decision D7). -/
def Obligations.JeqJumpsIffEqual : Prop :=
  ∀ s : State,
    (s.fl.getLsbD 0 = true →
      (∀ i : Fin nRegs, ∃ t, exec (.jeq (regOpnd i)) s = .next t ∧ t.pc = (s.reg i).toNat ∧
        KeepsRegistersExcept s [] t ∧ t.fl = s.fl ∧ KeepsMemory s t ∧ KeepsRunOutputParams s t) ∧
      RaisesOnBadOperandA s (fun a => exec (.jeq a) s)) ∧
    (s.fl.getLsbD 0 = false → ∀ a : WindowByte, ∃ t, exec (.jeq a) s = .next t ∧ t.pc = s.pc + 2 ∧
      KeepsRegistersExcept s [] t ∧ t.fl = s.fl ∧ KeepsMemory s t ∧ KeepsRunOutputParams s t) ∧
    ∀ ext a rest, decode ext (0x55 :: a :: rest) = .ok (.jeq (.byte a))

/-- 44_control.md rule R142, whole: with the Equal bit clear as JMP, otherwise an advance by 2
whatever the operand byte is, ABSENT included (decision D7). -/
def Obligations.JneJumpsIffNotEqual : Prop :=
  ∀ s : State,
    (s.fl.getLsbD 0 = false →
      (∀ i : Fin nRegs, ∃ t, exec (.jne (regOpnd i)) s = .next t ∧ t.pc = (s.reg i).toNat ∧
        KeepsRegistersExcept s [] t ∧ t.fl = s.fl ∧ KeepsMemory s t ∧ KeepsRunOutputParams s t) ∧
      RaisesOnBadOperandA s (fun a => exec (.jne a) s)) ∧
    (s.fl.getLsbD 0 = true → ∀ a : WindowByte, ∃ t, exec (.jne a) s = .next t ∧ t.pc = s.pc + 2 ∧
      KeepsRegistersExcept s [] t ∧ t.fl = s.fl ∧ KeepsMemory s t ∧ KeepsRunOutputParams s t) ∧
    ∀ ext a rest, decode ext (0x56 :: a :: rest) = .ok (.jne (.byte a))

/-! ### Halt (45_halt.md) -/

/-- 45_halt.md rule R150, whole: run becomes Halted, pc and everything else stay (decision D15). -/
def Obligations.HltHaltsAndChangesNothingElse : Prop :=
  ∀ s : State,
    (∃ t, exec .hlt s = .next t ∧ t.run = .halted ∧ t.pc = s.pc ∧ KeepsRegistersExcept s [] t ∧
      t.fl = s.fl ∧ KeepsMemory s t ∧ t.out = s.out ∧ t.params = s.params) ∧
    ∀ ext rest, decode ext (0x01 :: rest) = .ok .hlt

/-! ### The step (40_dispatch.md) -/

/-- A step runs the decoded instruction: nothing is added around `exec` (40_dispatch.md rules R80 and
R83). -/
def Obligations.StepRunsTheDecodedInstruction : Prop :=
  ∀ (s : State) (i : Instr), s.run = .running → decode s.params.aluExt s.fetchBytes = .ok i →
    step s = exec i s

/-- The bytes a step fetches are the cells at pc, pc+1 and pc+2, less those beyond address 255
(40_dispatch.md rules R81 and R82). -/
def Obligations.FetchReadsOpcodeAndWindow : Prop :=
  ∀ (s : State) (k : Nat), s.fetchBytes[k]? =
    if k < 3 ∧ s.pc + k < 256 then some (Memory.read s.mem (s.pc + k)) else none

/-- Where memory at pc holds a well-formed instruction's encoding, the step is that instruction's:
encoding, fetch, decode and dispatch agree (40_dispatch.md rules R80 to R83, 30_encoding.md rules R60
to R65 and R68). -/
def Obligations.StepRunsTheEncodedInstruction : Prop :=
  ∀ (s : State) (i : Instr), s.run = .running → i.wellFormed = true →
    i.inMapping s.params.aluExt = true → s.pc + (encode i).length ≤ 256 →
    (∀ k, k < (encode i).length → (encode i)[k]? = some (Memory.read s.mem (s.pc + k))) →
    step s = exec i s

/-- 40_dispatch.md rule R81: the opcode is the byte at pc; a fetch at pc of 256 or more raises
MEM_INDEX with that pc; and a step brings pc from memory to 256, 257 or 258 only by an advance. -/
def Obligations.FetchReadsPcOrRaises : Prop :=
  ∀ s : State, s.run = .running →
    (s.pc < 256 → s.fetchBytes.head? = some (Memory.read s.mem s.pc)) ∧
    (256 ≤ s.pc → Raises s (step s) .memIndex s.pc) ∧
    ∀ t, step s = .next t → s.pc < 256 → 256 ≤ t.pc → t.pc ≤ 258 ∧ ∃ n, n ∈ [1, 2, 3] ∧ t.pc = s.pc + n

/-- 40_dispatch.md rule R86: an opcode byte outside the mapping (30_encoding.md rules R65 and R68)
advances pc by one with no other effect under Permissive, and raises UNSUPPORTED_OPCODE with the byte
under Strict. -/
def Obligations.UnknownOpcodeFollowsThePolicy : Prop :=
  ∀ s : State, s.run = .running → s.pc < 256 →
    s.opcodeByte ∉ [0x01, 0x82, 0x47, 0x45, 0x46, 0x54, 0x55, 0x56, 0xA0, 0xA2, 0xA7] →
    (s.params.aluExt = .absent ∨ s.opcodeByte ∉ [0xA1, 0xA3, 0xA8, 0xAA, 0xAB]) →
    (s.params.unknownOpcodePolicy = .permissive → step s = .next { s with pc := s.pc + 1 }) ∧
    (s.params.unknownOpcodePolicy = .strict →
      Raises s (step s) .unsupportedOpcode s.opcodeByte.toNat)

/-- 40_dispatch.md rule R89: a Running machine always has a next state, and in Halted and Faulted
there is no step. -/
def Obligations.StepExistsExactlyInRunning : Prop :=
  ∀ s : State, (∃ t, step s = .next t) ↔ s.run = .running

/-- 40_dispatch.md rule R87 and 60_exceptions.md rule R167: a step that ends Faulted changes the run
state alone, and its record has the pc of the instruction. -/
def Obligations.ErrorsArePrecise : Prop :=
  ∀ (s t : State) (r : FaultRecord), step s = .next t → t.run = .faulted r →
    r.pc = s.pc ∧ t = { s with run := .faulted r }

/-- 45_halt.md rule R151, the run state machine: Running at pc 0 after reset; a step is Running's
alone; it goes to Halted exactly when the byte at pc is HLT's, to Faulted by an error entry that
changes nothing else, and otherwise stays Running; Halted and Faulted are terminal. -/
def Obligations.RunStateMachineIsAsTabulated : Prop :=
  State.reset.run = .running ∧ State.reset.pc = 0 ∧
    (∀ s t : State, step s = .next t → s.run = .running ∧
      (t.run = .halted ↔ s.pc < 256 ∧ s.opcodeByte = 0x01) ∧
      (∀ r, t.run = .faulted r → t = { s with run := .faulted r }) ∧
      (s.pc < 256 → s.opcodeByte ≠ 0x01 → (∀ r, t.run ≠ .faulted r) → t.run = .running)) ∧
    ∀ s : State, s.run ≠ .running → ∀ t, step s ≠ .next t

/-- 10_state.md rule R27: how far pc moves in a step, for each opcode byte: 3, 2 or 1 by the
instruction, to the register's value for a jump that is taken, and not at all in a step that halts or
faults. -/
def Obligations.PcMovesByTheDispatchResult : Prop :=
  ∀ s t : State, step s = .next t →
    (t.run ≠ .running → t.pc = s.pc) ∧
    (t.run = .running →
      (s.opcodeByte ∈ [0x82, 0xA0, 0xA2, 0xA7] → t.pc = s.pc + 3) ∧
      (s.opcodeByte ∈ [0xA1, 0xA3, 0xA8, 0xAA, 0xAB] →
        t.pc = s.pc + if s.params.aluExt = .ls8 then 3 else 1) ∧
      (s.opcodeByte ∈ [0x47, 0x45, 0x46] → t.pc = s.pc + 2) ∧
      (s.opcodeByte = 0x54 ∨ (s.opcodeByte = 0x55 ∧ s.fl.getLsbD 0 = true) ∨
          (s.opcodeByte = 0x56 ∧ s.fl.getLsbD 0 = false) → ∃ i : Fin nRegs,
        Memory.read s.mem (s.pc + 1) = BitVec.ofNat 8 i.val ∧ t.pc = (s.reg i).toNat) ∧
      ((s.opcodeByte = 0x55 ∧ s.fl.getLsbD 0 = false) ∨
          (s.opcodeByte = 0x56 ∧ s.fl.getLsbD 0 = true) → t.pc = s.pc + 2) ∧
      (s.opcodeByte ∉ [0x82, 0xA0, 0xA2, 0xA7, 0xA1, 0xA3, 0xA8, 0xAA, 0xAB, 0x47, 0x45, 0x46, 0x54,
        0x55, 0x56] → t.pc = s.pc + 1))

/-- A step that moves pc leaves it at 0x101 or below: the 0x102 that 10_state.md rule R28 allows is
never reached, since a three-byte instruction at 0xFE or 0xFF raises (derived; log 14). -/
def Obligations.NoStepMovesPcBeyond0x101 : Prop :=
  ∀ s t : State, step s = .next t → t.pc ≠ s.pc → t.pc ≤ 0x101

/-- 10_state.md rule R30: no step but CMP's changes FL, what a step leaves there is its old value or
exactly one bit, and no step but a JEQ's or JNE's reads FL, these its Equal bit alone: with another
FL (of the same Equal bit, for the branches) the step does the same to everything else, and a CMP that
completes leaves the same FL. -/
def Obligations.FlIsWrittenByCmpAndReadByBranches : Prop :=
  (∀ s t : State, step s = .next t →
    (s.opcodeByte ≠ 0xA7 → t.fl = s.fl) ∧
    (t.fl = s.fl ∨ t.fl = 0b001 ∨ t.fl = 0b010 ∨ t.fl = 0b100)) ∧
  ∀ (s t : State) (f : BitVec flagWidth), step s = .next t →
    (s.opcodeByte ∈ [0x55, 0x56] → f.getLsbD 0 = s.fl.getLsbD 0) →
    ∃ t', step { s with fl := f } = .next t' ∧ t' = { t with fl := t'.fl } ∧
      (s.opcodeByte = 0xA7 → t.run = .running → t'.fl = t.fl)

/-- 20_memory.md rule R42: no step but PUSH's writes memory, and PUSH writes one cell, at the
decremented SP. -/
def Obligations.OnlyPushWritesMemory : Prop :=
  ∀ (s t : State) (addr : Nat), step s = .next t →
    Memory.read t.mem addr ≠ Memory.read s.mem addr →
    s.opcodeByte = 0x45 ∧ addr + 1 = (s.reg 7).toNat ∧ t.reg 7 = s.reg 7 - 1

/-- 10_state.md rule R34: the output history is never cleared, and a step other than PRN's leaves it;
PRN adds one value. -/
def Obligations.OnlyPrnEmits : Prop :=
  ∀ s t : State, step s = .next t →
    t.out = s.out ∨ (s.opcodeByte = 0x47 ∧ ∃ v, t.out = s.out ++ [v])

/-- 10_state.md rule R25, the column of registers written: a step changes no register but the one its
operand byte a names, for LDI, POP and the ALU operations with a result, and R7 for PUSH and POP. -/
def Obligations.RegistersChangeOnlyAsTabulated : Prop :=
  ∀ (s t : State) (i : Fin nRegs), step s = .next t → t.reg i ≠ s.reg i →
    (s.opcodeByte ∈ [0x82, 0x46, 0xA0, 0xA2, 0xA1, 0xA3, 0xA8, 0xAA, 0xAB] ∧
      (s.opcodeByte ∈ [0xA1, 0xA3, 0xA8, 0xAA, 0xAB] → s.params.aluExt = .ls8) ∧
      Memory.read s.mem (s.pc + 1) = BitVec.ofNat 8 i.val) ∨
    (s.opcodeByte ∈ [0x45, 0x46] ∧ i = 7)

/-- The parameters of 00_scope.md rules R8 and R9 are the model's own fields: no step writes them and
a reset keeps them (log 2). -/
def Obligations.NoStepWritesTheParameters : Prop :=
  ∀ s : State, s.applyReset.params = s.params ∧ ∀ t, step s = .next t → t.params = s.params

/-- The end of 40_dispatch.md rule R91: from a Running state under Permissive whose memory reads zero
from pc on, the machine walks by ones to pc = 256, and the next step faults on the fetch. -/
def Obligations.ZeroMemoryIsWalkedToAFetchFault : Prop :=
  ∀ s : State, s.run = .running → s.params.unknownOpcodePolicy = .permissive → s.pc ≤ 256 →
    (∀ addr, s.pc ≤ addr → addr < 256 → Memory.read s.mem addr = 0) →
    Sys2Proof.core.run (256 - s.pc) s = .next { s with pc := 256 } ∧
    Sys2Proof.core.run (257 - s.pc) s = .next { s with
      pc := 256
      run := .faulted { code := .memIndex, pc := 256, info := some 256 } }

/-! ### Memory (20_memory.md) -/

/-- Memories in canonical form that read alike at every address of the space are equal data, so the
form loses nothing of 20_memory.md rule R40's array. -/
def Obligations.CanonicalMemoriesThatReadAlikeAreEqual : Prop :=
  ∀ m m' : Memory, Memory.wf m = true → Memory.wf m' = true →
    (∀ addr, addr < 256 → Memory.read m addr = Memory.read m' addr) → m = m'

/-- 20_memory.md rule R41: a single-byte access below 256 reads or writes that cell and no other, and
one at 256 or above raises MEM_INDEX with the address. -/
def Obligations.AccessPrimitivesCheckTheAddress : Prop :=
  ∀ (s : State) (addr : Nat) (v : Byte), Memory.wf s.mem = true →
    (addr < 256 → s.memRead addr = .ok (Memory.read s.mem addr) ∧
      ∃ t, s.memWrite addr v = .ok t ∧ t = { s with mem := t.mem } ∧ Memory.read t.mem addr = v ∧
        ∀ other, other ≠ addr → Memory.read t.mem other = Memory.read s.mem other) ∧
    (256 ≤ addr → s.memRead addr = .error { code := .memIndex, info := addr } ∧
      s.memWrite addr v = .error { code := .memIndex, info := addr })

/-! ### Load (70_reset_and_hazards.md, 30_encoding.md) -/

/-- 70_reset_and_hazards.md rule R191: a program of at most 256 bytes, the empty one included, stands
in memory from address 0, every other cell keeps its reset value and nothing else changes; a longer
one ends Faulted with MEM_INDEX at address 256 before any step (decision D17). -/
def Obligations.LoadWritesTheProgramOrFaults : Prop :=
  ∀ (p : Params) (program : List Byte),
    (program.length ≤ 256 →
      ∃ t, (State.resetWith p).load program = t ∧ t = { State.resetWith p with mem := t.mem } ∧
        ∀ addr, Memory.read t.mem addr = program.getD addr 0) ∧
    (256 < program.length →
      ∃ r, ((State.resetWith p).load program).run = .faulted r ∧ r.code = .memIndex ∧
        r.info = some 256 ∧ ∀ t, step ((State.resetWith p).load program) ≠ .next t)

/-- The text of 30_encoding.md rule R71 (decision D21): where every line either is ignored (it is empty,
or starts with neither 0 nor 1) or starts with a byte's 8 binary digits, most significant first, the
bytes are loaded in line order, whatever follows them on their lines. A missing program, and a text
with a line that starts with 0 or 1 and whose token before the comment is shorter than 8 characters or
has another character among its leading 8, ends Faulted with LOAD_ERROR and nothing else changed
(60_exceptions.md rule R166). The record's pc is log 9's, the short token log 10's, and memory left
unwritten wherever the line stands, with LOAD_ERROR however long the program is, is log 16's. -/
def Obligations.LoaderTextGivesBytesOrLoadError : Prop :=
  ∀ s : State,
    (∀ lines : List TextLine, (∀ l ∈ lines, '\n' ∉ l.chars) →
      (∀ line, .ignored line ∈ lines → ¬ StartsWithBinary line) →
      s.loadText (some (joinLines (lines.map TextLine.chars))) = s.load (lines.filterMap TextLine.byte?)) ∧
    s.loadText none = { s with run := .faulted { code := .loadError, pc := s.pc, info := none } } ∧
    ∀ (before after : List (List Char)) (token comment : List Char),
      (∀ l ∈ before ++ (token ++ comment) :: after, '\n' ∉ l) → '#' ∉ token →
      (comment = [] ∨ comment.head? = some '#') → StartsWithBinary token →
      (token.length < 8 ∨ ∃ c ∈ token.take 8, c ≠ '0' ∧ c ≠ '1') →
      s.loadText (some (joinLines (before ++ (token ++ comment) :: after))) =
        { s with run := .faulted { code := .loadError, pc := s.pc, info := none } }

/-! ### The end of a run (60_exceptions.md) -/

/-- The exit behaviour of 60_exceptions.md section 3: a Faulted run ends with a non-zero status and a
diagnostic that names its fault record, a Halted run with status 0 (decision D16), a Running machine
has not ended, and a run that has ended takes no step. That a Halted run has no diagnostic is the
model's choice (log 11). -/
def Obligations.RunEndsWithStatusAndDiagnostic : Prop :=
  hostEnd .running = none ∧ hostEnd .halted = some { status := .zero, diagnostic := none } ∧
    (∀ r, hostEnd (.faulted r) = some { status := .nonZero, diagnostic := some r }) ∧
    ∀ s : State, hostEnd s.run ≠ none → ∀ t, step s ≠ .next t

/-! ### The operand window at the top of memory (40_dispatch.md, 30_encoding.md) -/

/-- Where an opcode of the mapping is followed by fewer bytes than its instruction has operands, as at
the top of memory, the decoder gives that instruction with the missing operands ABSENT, whatever the
bytes that are there (40_dispatch.md rules R82 and R83, decision D6). -/
def Obligations.CutOffInstructionsDecodeWithAbsentOperands : Prop :=
  ∀ (ext : AluExt) (i : Instr) (present : List Byte) (missing : Nat), i.inMapping ext = true →
    i.operands = present.map .byte ++ List.replicate missing .absent →
    decode ext (i.opcode :: present) = .ok i

/-- 40_dispatch.md rule R82 (decision D6): a step runs the instruction of the opcode at pc on the two
window bytes, each the cell at pc+k or ABSENT from address 256 on, whatever they are. At 0xFF every
instruction that references operand a raises MEM_INDEX 0x100, and at 0xFE every one that references
operand b does, after the checks of operand a; HLT and a branch that is not taken reference neither
byte and raise nothing. -/
def Obligations.WindowBytesBeyondMemoryAreAbsent : Prop :=
  ∀ s : State, s.run = .running → s.pc < 256 →
    (∀ i : Instr, i.inMapping s.params.aluExt = true → s.opcodeByte = i.opcode →
      i.operands = ([1, 2].map fun k =>
        if s.pc + k < 256 then WindowByte.byte (Memory.read s.mem (s.pc + k)) else .absent).take
          i.operands.length →
      step s = exec i s) ∧
    (s.pc = 0xFF →
      s.opcodeByte ∈ [0x47, 0x45, 0x46, 0x54, 0x82, 0xA0, 0xA2, 0xA7] ∨
        (s.opcodeByte = 0x55 ∧ s.fl.getLsbD 0 = true) ∨
        (s.opcodeByte = 0x56 ∧ s.fl.getLsbD 0 = false) ∨
        (s.opcodeByte ∈ [0xA1, 0xA3, 0xA8, 0xAA, 0xAB] ∧ s.params.aluExt = .ls8) →
      Raises s (step s) .memIndex 0x100) ∧
    (s.pc = 0xFE →
      s.opcodeByte ∈ [0x82, 0xA0, 0xA2, 0xA7] ∨
        (s.opcodeByte ∈ [0xA1, 0xA3, 0xA8, 0xAA, 0xAB] ∧ s.params.aluExt = .ls8) →
      ((Memory.read s.mem 0xFF).toNat < 8 → Raises s (step s) .memIndex 0x100) ∧
      (8 ≤ (Memory.read s.mem 0xFF).toNat →
        Raises s (step s) .regIndex (Memory.read s.mem 0xFF).toNat)) ∧
    (s.opcodeByte = 0x01 → step s = .next { s with run := .halted }) ∧
    ((s.opcodeByte = 0x55 ∧ s.fl.getLsbD 0 = false) ∨ (s.opcodeByte = 0x56 ∧ s.fl.getLsbD 0 = true) →
      step s = .next { s with pc := s.pc + 2 })
end

