-- ==== Sys2Proof/Laws/Memory.lean ====
section
/-! SUPPORT. Reading and writing one byte of memory, and that every memory operation keeps the
canonical form. -/

namespace Sys2Proof.Machine

@[simp] theorem Memory.read_nil (addr : Nat) : Memory.read [] addr = Memory.unlisted := rfl

theorem Memory.read_cons (a : Nat) (v : Byte) (m : Memory) (addr : Nat) :
    Memory.read ((a, v) :: m) addr = if a = addr then v else Memory.read m addr := rfl

theorem Memory.canonicalFrom_cons {lo a : Nat} {v : Byte} {m : Memory} :
    Memory.canonicalFrom lo ((a, v) :: m) = true ↔
      lo ≤ a ∧ a < memSize ∧ v ≠ Memory.unlisted ∧ Memory.canonicalFrom (a + 1) m = true := by
  simp [Memory.canonicalFrom, and_assoc]

theorem Memory.canonicalFrom_mono {lo lo' : Nat} {m : Memory} (h : lo' ≤ lo)
    (hm : Memory.canonicalFrom lo m = true) : Memory.canonicalFrom lo' m = true := by
  cases m with
  | nil => rfl
  | cons c m =>
    obtain ⟨a, v⟩ := c
    rw [Memory.canonicalFrom_cons] at hm ⊢
    exact ⟨h.trans hm.1, hm.2⟩

/-- Below the first listed address every cell is unlisted. -/
theorem Memory.read_below {lo addr : Nat} {m : Memory} (hm : Memory.canonicalFrom lo m = true)
    (h : addr < lo) : Memory.read m addr = Memory.unlisted := by
  induction m generalizing lo with
  | nil => rfl
  | cons c m ih =>
    obtain ⟨a, v⟩ := c
    rw [Memory.canonicalFrom_cons] at hm
    rw [Memory.read_cons, if_neg (by omega), ih hm.2.2.2 (by omega)]

/-- In canonical form no cell beyond the address space is listed. -/
theorem Memory.read_outside {lo addr : Nat} {m : Memory} (hm : Memory.canonicalFrom lo m = true)
    (h : memSize ≤ addr) : Memory.read m addr = Memory.unlisted := by
  induction m generalizing lo with
  | nil => rfl
  | cons c m ih =>
    obtain ⟨a, v⟩ := c
    rw [Memory.canonicalFrom_cons] at hm
    rw [Memory.read_cons, if_neg (by omega), ih hm.2.2.2]

/-- A write leaves every other cell as it was. -/
theorem Memory.read_write_ne {m : Memory} {addr other : Nat} {v : Byte} (h : other ≠ addr) :
    Memory.read (Memory.write m addr v) other = Memory.read m other := by
  induction m with
  | nil =>
    simp only [Memory.write]
    split
    · rfl
    · rw [Memory.read_cons, if_neg (Ne.symm h)]
  | cons c m ih =>
    obtain ⟨a, w⟩ := c
    simp only [Memory.write]
    split
    · split
      · rfl
      · rw [Memory.read_cons, if_neg (Ne.symm h)]
    · split
      · next hk =>
        subst hk
        split
        · rw [Memory.read_cons, if_neg (Ne.symm h)]
        · rw [Memory.read_cons, Memory.read_cons, if_neg (Ne.symm h), if_neg (Ne.symm h)]
      · rw [Memory.read_cons, Memory.read_cons, ih]

/-- A read of the cell just written gives the value written. -/
theorem Memory.read_write_self {lo : Nat} {m : Memory} {addr : Nat} {v : Byte}
    (hm : Memory.canonicalFrom lo m = true) :
    Memory.read (Memory.write m addr v) addr = v := by
  induction m generalizing lo with
  | nil =>
    simp only [Memory.write]
    split
    · next hv => rw [Memory.read_nil, hv]
    · rw [Memory.read_cons, if_pos rfl]
  | cons c m ih =>
    obtain ⟨a, w⟩ := c
    have hc := Memory.canonicalFrom_cons.1 hm
    simp only [Memory.write]
    split
    · next ha =>
      split
      · next hv =>
        rw [Memory.read_cons, if_neg (by omega), Memory.read_below hc.2.2.2 (by omega), hv]
      · rw [Memory.read_cons, if_pos rfl]
    · split
      · next hk =>
        subst hk
        split
        · next hv => rw [Memory.read_below hc.2.2.2 (Nat.lt_succ_self addr), hv]
        · rw [Memory.read_cons, if_pos rfl]
      · rw [Memory.read_cons, if_neg (by omega), ih hc.2.2.2]

/-- A write below the end of the address space keeps the canonical form. -/
theorem Memory.canonicalFrom_write {lo : Nat} {m : Memory} {addr : Nat} {v : Byte}
    (hm : Memory.canonicalFrom lo m = true) (hlo : lo ≤ addr) (ha : addr < memSize) :
    Memory.canonicalFrom lo (Memory.write m addr v) = true := by
  induction m generalizing lo with
  | nil =>
    simp only [Memory.write]
    split
    · rfl
    · next hv => exact Memory.canonicalFrom_cons.2 ⟨hlo, ha, hv, rfl⟩
  | cons c m ih =>
    obtain ⟨a, w⟩ := c
    have hc := Memory.canonicalFrom_cons.1 hm
    simp only [Memory.write]
    split
    · next hlt =>
      split
      · exact hm
      · next hv =>
        exact Memory.canonicalFrom_cons.2
          ⟨hlo, ha, hv, Memory.canonicalFrom_cons.2 ⟨hlt, hc.2⟩⟩
    · split
      · next hk =>
        subst hk
        split
        · exact Memory.canonicalFrom_mono (by omega) hc.2.2.2
        · next hv => exact Memory.canonicalFrom_cons.2 ⟨hlo, ha, hv, hc.2.2.2⟩
      · exact Memory.canonicalFrom_cons.2
          ⟨hc.1, hc.2.1, hc.2.2.1, ih hc.2.2.2 (by omega)⟩

theorem Memory.wf_nil : Memory.wf [] = true := rfl

theorem Memory.wf_write {m : Memory} {addr : Nat} {v : Byte} (hm : Memory.wf m = true)
    (ha : addr < memSize) : Memory.wf (Memory.write m addr v) = true :=
  Memory.canonicalFrom_write hm (Nat.zero_le addr) ha

theorem Memory.wf_place {m : Memory} {addr : Nat} {vs : List Byte} (hm : Memory.wf m = true) :
    Memory.wf (Memory.place m addr vs) = true := by
  induction vs generalizing m addr with
  | nil => exact hm
  | cons v vs ih =>
    simp only [Memory.place]
    split
    · next ha => exact ih (Memory.wf_write hm ha)
    · exact hm

theorem State.memWrite_keeps_wf {s t : State} {addr : Nat} {v : Byte} (hm : Memory.wf s.mem = true)
    (h : s.memWrite addr v = .ok t) : Memory.wf t.mem = true := by
  simp only [State.memWrite] at h
  split at h
  · next ha => cases h; exact Memory.wf_write hm ha
  · cases h

theorem State.reset_mem_wf (p : Params) : Memory.wf (State.resetWith p).mem = true := rfl

/-- The k-th byte fetched from an address is the cell k beyond it, where there is one. -/
theorem Memory.bytesAt_getElem? (m : Memory) (addr n k : Nat) :
    (Memory.bytesAt m addr n)[k]? =
      if k < n ∧ addr + k < memSize then some (Memory.read m (addr + k)) else none := by
  induction n generalizing addr k with
  | zero => simp [Memory.bytesAt]
  | succ n ih =>
    simp only [Memory.bytesAt]
    split
    · next ha =>
      cases k with
      | zero => simp [ha]
      | succ k =>
        rw [List.getElem?_cons_succ, ih]
        simp only [Nat.add_lt_add_iff_right, Nat.add_assoc, Nat.add_comm 1 k]
    · next ha =>
      rw [List.getElem?_nil, if_neg (by omega)]

end Sys2Proof.Machine
end

