-- ==== Sys2Proof/Laws/Decode.lean ====
section
/-! SUPPORT. What the decoder answers: every instruction of the mapping is the one its opcode's row
builds from the window bytes, and a byte outside the mapping is rejected by name. -/

namespace Sys2Proof

@[simp] theorem headByte_nil : headByte [] = .absent := rfl
@[simp] theorem headByte_cons (v : Byte) (vs : List Byte) : headByte (v :: vs) = .byte v := rfl

@[simp] theorem decode_nil (ext : AluExt) : decode ext [] = .error .noBytes := rfl

theorem decode_cons_some {ext : AluExt} {op : Byte} {r : OpcodeRow} (window : List Byte)
    (h : lookupOpcode ext op = some r) :
    decode ext (op :: window) = .ok (r.build (headByte window) (headByte window.tail)) := by
  simp [decode, h]

theorem decode_cons_none {ext : AluExt} {op : Byte} (window : List Byte)
    (h : lookupOpcode ext op = none) :
    decode ext (op :: window) = .error (.unknownOpcode op) := by
  simp [decode, h]

/-- A row of the mapping builds instructions of its own opcode, and of its own format's length. -/
theorem build_opcode {ext : AluExt} {op : Byte} {r : OpcodeRow} (h : lookupOpcode ext op = some r)
    (a b : WindowByte) : (r.build a b).opcode = op := by
  have hop : r.opcode = op := by simpa using List.find?_some h
  have hmem : r ∈ baseMap ++ extMap := by
    have := List.mem_of_find?_eq_some h
    cases ext with
    | absent => exact List.mem_append_left _ this
    | unsupported => exact this
    | ls8 => exact this
  rw [← hop]
  simp only [baseMap, extMap, List.cons_append, List.nil_append, List.mem_cons, List.not_mem_nil,
    or_false] at hmem
  rcases hmem with h | h | h | h | h | h | h | h | h | h | h | h | h | h | h | h <;> subst h <;> rfl

/-- The whole mapping holds every instruction's opcode. -/
theorem inMapping_ls8 (i : Instr) : i.inMapping .ls8 = true := by
  cases i <;> rfl

/-- The row of an instruction of the mapping builds it from window bytes that begin with its
operands. -/
theorem lookupOpcode_of_inMapping {ext : AluExt} {i : Instr} {a b : WindowByte}
    (hm : i.inMapping ext = true) (h : i.operands = [a, b].take i.operands.length) :
    ∃ r, lookupOpcode ext i.opcode = some r ∧ r.build a b = i := by
  unfold Instr.inMapping at hm
  obtain ⟨r, hr⟩ := Option.isSome_iff_exists.1 hm
  refine ⟨r, hr, ?_⟩
  cases i <;> cases ext <;> cases hr <;> simp_all [Instr.operands]

/-- Window bytes that are there, padded with ABSENT, are what the decoder sees of them. -/
theorem window_of_padded {present : List Byte} {a b : WindowByte} {ws : List WindowByte} {missing : Nat}
    (h : ws = present.map .byte ++ List.replicate missing .absent) (hlen : ws.length ≤ 2)
    (ha : a = headByte present) (hb : b = headByte present.tail) : ws = [a, b].take ws.length := by
  subst h ha hb
  match present, missing with
  | [], 0 => rfl
  | [], 1 => rfl
  | [], 2 => rfl
  | [_], 0 => rfl
  | [_], 1 => rfl
  | [_, _], 0 => rfl
  | [], _ + 3 | [_], _ + 2 | [_, _], _ + 1 | _ :: _ :: _ :: _, _ =>
    simp only [List.length_append, List.length_map, List.length_replicate, List.length_cons,
      List.length_nil] at hlen
    omega

theorem operands_length_le (i : Instr) : i.operands.length ≤ 2 := by
  cases i <;> simp [Instr.operands]

end Sys2Proof
end

