-- ==== Sys2Proof/Laws/State.lean ====
section
/-! SUPPORT. One lemma per field per update of State, so that no later proof unfolds a record update. -/

namespace Sys2Proof.Machine

/-! ### The constants as numbers, for `omega` -/

theorem memSize_eq : memSize = 256 := rfl
theorem nRegs_eq : nRegs = 8 := rfl
theorem stackTop_toNat : stackTop.toNat = 0xF4 := rfl

variable (s : State) (i j : Fin nRegs) (v : Byte) (e : Raised) (n : Nat)

/-! ### setReg -/

@[simp] theorem reg_setReg_self : (s.setReg i v).reg i = v := by
  simp [State.setReg, State.reg]

theorem reg_setReg_ne {s : State} {i j : Fin nRegs} {v : Byte} (h : i ≠ j) :
    (s.setReg i v).reg j = s.reg j := by
  simp [State.setReg, State.reg, Fin.val_ne_of_ne h]

theorem reg_setReg : (s.setReg i v).reg j = if i = j then v else s.reg j := by
  split
  · next h => subst h; simp
  · next h => exact reg_setReg_ne h

@[simp] theorem setReg_pc : (s.setReg i v).pc = s.pc := rfl
@[simp] theorem setReg_fl : (s.setReg i v).fl = s.fl := rfl
@[simp] theorem setReg_mem : (s.setReg i v).mem = s.mem := rfl
@[simp] theorem setReg_run : (s.setReg i v).run = s.run := rfl
@[simp] theorem setReg_out : (s.setReg i v).out = s.out := rfl
@[simp] theorem setReg_params : (s.setReg i v).params = s.params := rfl

/-! ### The registers under updates of other fields -/

@[simp] theorem reg_with_pc (p : Nat) : ({ s with pc := p } : State).reg j = s.reg j := rfl
@[simp] theorem reg_with_fl (f : BitVec flagWidth) : ({ s with fl := f } : State).reg j = s.reg j := rfl
@[simp] theorem reg_with_mem (m : Memory) : ({ s with mem := m } : State).reg j = s.reg j := rfl
@[simp] theorem reg_with_run (r : RunState) : ({ s with run := r } : State).reg j = s.reg j := rfl
@[simp] theorem reg_with_out (o : List Byte) : ({ s with out := o } : State).reg j = s.reg j := rfl

/-! ### emit -/

@[simp] theorem emit_reg : (s.emit v).reg j = s.reg j := rfl
@[simp] theorem emit_pc : (s.emit v).pc = s.pc := rfl
@[simp] theorem emit_fl : (s.emit v).fl = s.fl := rfl
@[simp] theorem emit_mem : (s.emit v).mem = s.mem := rfl
@[simp] theorem emit_run : (s.emit v).run = s.run := rfl
@[simp] theorem emit_out : (s.emit v).out = s.out ++ [v] := rfl
@[simp] theorem emit_params : (s.emit v).params = s.params := rfl

/-! ### takeError -/

@[simp] theorem takeError_reg : (s.takeError e).reg j = s.reg j := rfl
@[simp] theorem takeError_pc : (s.takeError e).pc = s.pc := rfl
@[simp] theorem takeError_fl : (s.takeError e).fl = s.fl := rfl
@[simp] theorem takeError_mem : (s.takeError e).mem = s.mem := rfl
@[simp] theorem takeError_run :
    (s.takeError e).run = .faulted { code := e.code, pc := s.pc, info := some e.info } := rfl
@[simp] theorem takeError_out : (s.takeError e).out = s.out := rfl
@[simp] theorem takeError_params : (s.takeError e).params = s.params := rfl

/-! ### applyResult -/

@[simp] theorem applyResult_reg (r : DispatchResult) : (s.applyResult r).reg j = s.reg j := by
  cases r <;> rfl
@[simp] theorem applyResult_fl (r : DispatchResult) : (s.applyResult r).fl = s.fl := by
  cases r <;> rfl
@[simp] theorem applyResult_mem (r : DispatchResult) : (s.applyResult r).mem = s.mem := by
  cases r <;> rfl
@[simp] theorem applyResult_out (r : DispatchResult) : (s.applyResult r).out = s.out := by
  cases r <;> rfl
@[simp] theorem applyResult_params (r : DispatchResult) : (s.applyResult r).params = s.params := by
  cases r <;> rfl
@[simp] theorem applyResult_advance_pc : (s.applyResult (.advance n)).pc = s.pc + n := rfl
@[simp] theorem applyResult_advance_run : (s.applyResult (.advance n)).run = s.run := rfl
@[simp] theorem applyResult_jump_pc : (s.applyResult (.jump v)).pc = v.toNat := rfl
@[simp] theorem applyResult_jump_run : (s.applyResult (.jump v)).run = s.run := rfl
@[simp] theorem applyResult_halt_pc : (s.applyResult .halt).pc = s.pc := rfl
@[simp] theorem applyResult_halt_run : (s.applyResult .halt).run = .halted := rfl

/-! ### SP -/

theorem sp_eq : s.sp = s.reg spIndex := rfl

end Sys2Proof.Machine
end

