-- ==== Sys2Proof/Laws/Ops.lean ====
section
/-! SUPPORT. What each shared operation can do, said once, for the provers to cite. -/

namespace Sys2Proof.Machine

/-! ### How a body ends -/

@[simp] theorem conclude_ok (s t : State) (r : DispatchResult) :
    s.conclude (.ok (t, r)) = .next (t.applyResult r) := rfl

@[simp] theorem conclude_error (s : State) (e : Raised) :
    s.conclude (.error e) = .next (s.takeError e) := rfl

/-- An outcome of `conclude` is the body's writes with its result, or the error and nothing else. -/
theorem conclude_next {s u : State} {body : Except Raised (State × DispatchResult)}
    (h : s.conclude body = .next u) :
    (∃ t r, body = .ok (t, r) ∧ u = t.applyResult r) ∨
      ∃ e, body = .error e ∧ u = s.takeError e := by
  cases body with
  | ok p => exact .inl ⟨p.1, p.2, rfl, (Host.Outcome.next.inj h).symm⟩
  | error e => exact .inr ⟨e, rfl, (Host.Outcome.next.inj h).symm⟩

theorem raises_conclude_error (s : State) (e : Raised) :
    Raises s (s.conclude (.error e)) e.code e.info := rfl

/-! ### Operands -/

@[simp] theorem opnd_byte (s : State) (k : Nat) (v : Byte) : s.opnd k (.byte v) = .ok v := rfl

@[simp] theorem opnd_absent (s : State) (k : Nat) :
    s.opnd k .absent = .error { code := .memIndex, info := s.pc + k } := rfl

theorem checkRegIndex_of_lt {v : Byte} (h : v.toNat < nRegs) :
    checkRegIndex v = .ok ⟨v.toNat, h⟩ := by
  simp [checkRegIndex, h]

theorem checkRegIndex_of_ge {v : Byte} (h : nRegs ≤ v.toNat) :
    checkRegIndex v = .error { code := .regIndex, info := v.toNat } := by
  simp [checkRegIndex, Nat.not_lt.2 h]

@[simp] theorem regOperand_absent (s : State) (k : Nat) :
    s.regOperand k .absent = .error { code := .memIndex, info := s.pc + k } := rfl

theorem regOperand_of_ge {s : State} {k : Nat} {v : Byte} (h : nRegs ≤ v.toNat) :
    s.regOperand k (.byte v) = .error { code := .regIndex, info := v.toNat } :=
  checkRegIndex_of_ge h

@[simp] theorem regOperand_regOpnd (s : State) (k : Nat) (i : Fin nRegs) :
    s.regOperand k (regOpnd i) = .ok i := by
  have hi : (BitVec.ofNat 8 i.val).toNat = i.val := by
    rw [BitVec.toNat_ofNat]; exact Nat.mod_eq_of_lt (i.isLt.trans (by decide))
  show checkRegIndex (BitVec.ofNat 8 i.val) = .ok i
  rw [checkRegIndex_of_lt (by rw [hi]; exact i.isLt)]
  exact congrArg Except.ok (Fin.ext hi)

/-- The error of a register operand at window place k: an ABSENT byte, or a byte of 8 or more. -/
def OperandError (s : State) (k : Nat) (w : WindowByte) (e : Raised) : Prop :=
  (w = .absent ∧ e = { code := .memIndex, info := s.pc + k }) ∨
    ∃ v : Byte, w = .byte v ∧ nRegs ≤ v.toNat ∧ e = { code := .regIndex, info := v.toNat }

/-- A register operand names a register, or the check answers its error. -/
theorem regOperand_cases (s : State) (k : Nat) (w : WindowByte) :
    (∃ i, w = regOpnd i ∧ s.regOperand k w = .ok i) ∨
      ∃ e, s.regOperand k w = .error e ∧ OperandError s k w e := by
  cases w with
  | absent => exact .inr ⟨_, rfl, .inl ⟨rfl, rfl⟩⟩
  | byte v =>
    by_cases h : v.toNat < nRegs
    · have hw : WindowByte.byte v = regOpnd ⟨v.toNat, h⟩ := by simp [regOpnd]
      refine .inl ⟨⟨v.toNat, h⟩, hw, ?_⟩
      rw [hw, regOperand_regOpnd]
    · have hge : nRegs ≤ v.toNat := Nat.not_lt.1 h
      exact .inr ⟨_, regOperand_of_ge hge, .inr ⟨v, rfl, hge, rfl⟩⟩

/-! ### Pairs of registers, the ALU shape, jumps -/

@[simp] theorem regPair_regOpnd (s : State) (i j : Fin nRegs) :
    s.regPair (regOpnd i) (regOpnd j) = .ok (i, j) := by
  simp [State.regPair, bind, Except.bind, pure, Except.pure]

@[simp] theorem regPair_absent (s : State) (b : WindowByte) :
    s.regPair .absent b = .error { code := .memIndex, info := s.pc + 1 } := rfl

theorem regPair_of_ge {s : State} {v : Byte} (b : WindowByte) (h : nRegs ≤ v.toNat) :
    s.regPair (.byte v) b = .error { code := .regIndex, info := v.toNat } := by
  simp [State.regPair, regOperand_of_ge h, bind, Except.bind]

@[simp] theorem regPair_regOpnd_absent (s : State) (i : Fin nRegs) :
    s.regPair (regOpnd i) .absent = .error { code := .memIndex, info := s.pc + 2 } := by
  simp [State.regPair, bind, Except.bind]

theorem regPair_regOpnd_of_ge {s : State} {v : Byte} (i : Fin nRegs) (h : nRegs ≤ v.toNat) :
    s.regPair (regOpnd i) (.byte v) = .error { code := .regIndex, info := v.toNat } := by
  simp [State.regPair, regOperand_of_ge h, bind, Except.bind]

/-- Two register operands name two registers, or the check answers the error of one of them. -/
theorem regPair_cases (s : State) (a b : WindowByte) :
    (∃ i j, a = regOpnd i ∧ b = regOpnd j ∧ s.regPair a b = .ok (i, j)) ∨
      ∃ e, s.regPair a b = .error e ∧ (OperandError s 1 a e ∨ OperandError s 2 b e) := by
  rcases regOperand_cases s 1 a with ⟨i, rfl, -⟩ | ⟨e, he, hop⟩
  · rcases regOperand_cases s 2 b with ⟨j, rfl, -⟩ | ⟨e, he, hop⟩
    · exact .inl ⟨i, j, rfl, rfl, regPair_regOpnd s i j⟩
    · exact .inr ⟨e, by simp [State.regPair, he, bind, Except.bind], .inr hop⟩
  · exact .inr ⟨e, by simp [State.regPair, he, bind, Except.bind], .inl hop⟩

/-- A body that begins with the pair of registers raises on every bad pair, whatever follows. -/
theorem raisesOnBadOperandPair_of_regPair {s : State}
    {run : WindowByte → WindowByte → Host.Outcome State Fault Refusal}
    {k : Fin nRegs × Fin nRegs → Except Raised (State × DispatchResult)}
    (h : ∀ a b, run a b = s.conclude (s.regPair a b >>= k)) : RaisesOnBadOperandPair s run := by
  refine ⟨fun b => ⟨?_, fun v hv => ?_⟩, fun i => ⟨?_, fun v hv => ?_⟩⟩
  · show Raises s (run .absent b) _ _
    rw [h, regPair_absent]; rfl
  · show Raises s (run (.byte v) b) _ _
    rw [h, regPair_of_ge b hv]; rfl
  · rw [h, regPair_regOpnd_absent]; rfl
  · rw [h, regPair_regOpnd_of_ge i hv]; rfl

/-- A body that begins with one register raises on every bad operand, whatever follows. -/
theorem raisesOnBadOperandA_of_regOperand {s : State}
    {run : WindowByte → Host.Outcome State Fault Refusal}
    {k : Fin nRegs → Except Raised (State × DispatchResult)}
    (h : ∀ a, run a = s.conclude (s.regOperand 1 a >>= k)) : RaisesOnBadOperandA s run := by
  refine ⟨?_, fun v hv => ?_⟩
  · rw [h, regOperand_absent]; rfl
  · rw [h, regOperand_of_ge hv]; rfl

@[simp] theorem aluBinary_regOpnd (s : State) (f : Byte → Byte → Byte) (i j : Fin nRegs) :
    s.aluBinary f (regOpnd i) (regOpnd j) =
      .ok (s.setReg i (f (s.reg i) (s.reg j)), .advance 3) := by
  simp [State.aluBinary, bind, Except.bind, pure, Except.pure]

@[simp] theorem jumpTo_regOpnd (s : State) (i : Fin nRegs) :
    s.jumpTo (regOpnd i) = .ok (s, .jump (s.reg i)) := by
  simp [State.jumpTo, bind, Except.bind, pure, Except.pure]

theorem aluExtension_ls8 {s : State} {op : Byte} {body : Except Raised (State × DispatchResult)}
    (h : s.params.aluExt = .ls8) : s.aluExtension op body = s.conclude body := by
  simp [State.aluExtension, h]

theorem aluExtension_unsupported {s : State} {op : Byte}
    {body : Except Raised (State × DispatchResult)} (h : s.params.aluExt = .unsupported) :
    s.aluExtension op body = .next (s.takeError { code := .unsupportedAluOp, info := op.toNat }) := by
  simp [State.aluExtension, h]

theorem aluExtension_absent {s : State} {op : Byte}
    {body : Except Raised (State × DispatchResult)} (h : s.params.aluExt = .absent) :
    s.aluExtension op body = s.unknownOpcode op := by
  simp [State.aluExtension, h]

theorem unknownOpcode_permissive {s : State} {op : Byte}
    (h : s.params.unknownOpcodePolicy = .permissive) :
    s.unknownOpcode op = .next { s with pc := s.pc + 1 } := by
  simp [State.unknownOpcode, h, State.applyResult]

theorem unknownOpcode_strict {s : State} {op : Byte} (h : s.params.unknownOpcodePolicy = .strict) :
    s.unknownOpcode op = .next (s.takeError { code := .unsupportedOpcode, info := op.toNat }) := by
  simp [State.unknownOpcode, h]

/-! ### The arithmetic as numbers -/

theorem aluAdd_toNat (va vb : Byte) : (aluAdd va vb).toNat = (va.toNat + vb.toNat) % 256 := by
  simp [aluAdd]

theorem aluMul_toNat (va vb : Byte) : (aluMul va vb).toNat = (va.toNat * vb.toNat) % 256 := by
  simp [aluMul]

theorem aluSub_toNat (va vb : Byte) :
    ((aluSub va vb).toNat : Int) = ((va.toNat : Int) - (vb.toNat : Int)) % 256 := by
  simp only [aluSub, BitVec.toNat_ofInt]
  omega

theorem aluDiv_toNat (va vb : Byte) : (aluDiv va vb).toNat = va.toNat / vb.toNat := by
  have h : va.toNat / vb.toNat ≤ va.toNat := Nat.div_le_self _ _
  have := va.isLt
  simp only [aluDiv, BitVec.toNat_ofNat]
  exact Nat.mod_eq_of_lt (by omega)

theorem legalFlags_compareFlags (va vb : Byte) : legalFlags (compareFlags va vb) = true := by
  unfold compareFlags
  split
  · rfl
  · split <;> rfl

end Sys2Proof.Machine
end

