-- ==== Sys2Proof/Laws/Exec.lean ====
section
/-! SUPPORT. What each instruction can do, said once: its own effect on good operands, or the entry
into the error of a bad one. Every meaning answers a next state on every state. -/

namespace Sys2Proof.Machine

/-- The state after an instruction that writes register i. -/
theorem aluBinary_cases (s : State) (f : Byte → Byte → Byte) (a b : WindowByte) :
    (∃ i j, a = regOpnd i ∧ b = regOpnd j ∧ s.conclude (s.aluBinary f a b) =
      .next { s.setReg i (f (s.reg i) (s.reg j)) with pc := s.pc + 3 }) ∨
    ∃ e, s.conclude (s.aluBinary f a b) = .next (s.takeError e) ∧
      (OperandError s 1 a e ∨ OperandError s 2 b e) := by
  rcases regPair_cases s a b with ⟨i, j, rfl, rfl, -⟩ | ⟨e, he, hop⟩
  · exact .inl ⟨i, j, rfl, rfl, by simp [State.applyResult]⟩
  · exact .inr ⟨e, by simp [State.aluBinary, he, bind, Except.bind], hop⟩

/-- A jump to a register, or the error of its operand. -/
theorem jumpTo_cases (s : State) (a : WindowByte) :
    (∃ i, a = regOpnd i ∧
      s.conclude (s.jumpTo a) = .next { s with pc := (s.reg i).toNat }) ∨
    ∃ e, s.conclude (s.jumpTo a) = .next (s.takeError e) ∧ OperandError s 1 a e := by
  rcases regOperand_cases s 1 a with ⟨i, rfl, -⟩ | ⟨e, he, hop⟩
  · exact .inl ⟨i, rfl, by simp [State.applyResult]⟩
  · exact .inr ⟨e, by simp [State.jumpTo, he, bind, Except.bind], hop⟩

theorem execHlt_eq (s : State) : execHlt s = .next { s with run := .halted } := rfl

theorem execLdi_cases (a imm : WindowByte) (s : State) :
    (∃ i v, a = regOpnd i ∧ imm = .byte v ∧
      execLdi a imm s = .next { s.setReg i v with pc := s.pc + 3 }) ∨
    ∃ e, execLdi a imm s = .next (s.takeError e) ∧
      (OperandError s 1 a e ∨ OperandError s 2 imm e) := by
  rcases regOperand_cases s 1 a with ⟨i, rfl, -⟩ | ⟨e, he, hop⟩
  · cases imm with
    | byte v =>
      exact .inl ⟨i, v, rfl, rfl, by
        simp [execLdi, bind, Except.bind, pure, Except.pure, State.applyResult]⟩
    | absent =>
      exact .inr ⟨{ code := .memIndex, info := s.pc + 2 },
        by simp [execLdi, bind, Except.bind], .inr (.inl ⟨rfl, rfl⟩)⟩
  · exact .inr ⟨e, by simp [execLdi, he, bind, Except.bind], .inl hop⟩

theorem execPrn_cases (a : WindowByte) (s : State) :
    (∃ i, a = regOpnd i ∧ execPrn a s = .next { s.emit (s.reg i) with pc := s.pc + 2 }) ∨
    ∃ e, execPrn a s = .next (s.takeError e) ∧ OperandError s 1 a e := by
  rcases regOperand_cases s 1 a with ⟨i, rfl, -⟩ | ⟨e, he, hop⟩
  · exact .inl ⟨i, rfl, by
      simp [execPrn, bind, Except.bind, pure, Except.pure, State.applyResult]⟩
  · exact .inr ⟨e, by simp [execPrn, he, bind, Except.bind], hop⟩

/-- PUSH stores at the decremented SP, or raises: its operand's error, then STACK_OVERFLOW. -/
theorem execPush_cases (a : WindowByte) (s : State) :
    (∃ i, a = regOpnd i ∧ s.sp ≠ 0 ∧ execPush a s =
      .next { s.setReg spIndex (s.sp - 1) with
        mem := Memory.write s.mem (s.sp - 1).toNat ((s.setReg spIndex (s.sp - 1)).reg i)
        pc := s.pc + 2 }) ∨
    (∃ i, a = regOpnd i ∧ s.sp = 0 ∧
      execPush a s = .next (s.takeError { code := .stackOverflow, info := s.sp.toNat })) ∨
    ∃ e, execPush a s = .next (s.takeError e) ∧ OperandError s 1 a e := by
  rcases regOperand_cases s 1 a with ⟨i, rfl, -⟩ | ⟨e, he, hop⟩
  · by_cases h : s.sp = 0
    · refine .inr (.inl ⟨i, rfl, h, ?_⟩)
      simp [execPush, bind, Except.bind, h, throw, throwThe, MonadExceptOf.throw]
    · refine .inl ⟨i, rfl, h, ?_⟩
      have hlt : (s.sp - 1).toNat < memSize := (s.sp - 1).isLt
      simp only [execPush, regOperand_regOpnd, bind, Except.bind, if_neg h, State.memWrite,
        sp_eq (s.setReg _ _), reg_setReg_self, if_pos hlt, pure, Except.pure, conclude_ok]
      rfl
  · exact .inr (.inr ⟨e, by simp [execPush, he, bind, Except.bind], hop⟩)

/-- POP loads from SP and moves SP up, or raises: its operand's error, then STACK_UNDERFLOW. -/
theorem execPop_cases (a : WindowByte) (s : State) :
    (∃ i, a = regOpnd i ∧ s.sp.toNat < stackTop.toNat ∧ execPop a s =
      .next { (s.setReg i (Memory.read s.mem s.sp.toNat)).setReg spIndex
          ((s.setReg i (Memory.read s.mem s.sp.toNat)).sp + 1) with pc := s.pc + 2 }) ∨
    (∃ i, a = regOpnd i ∧ stackTop.toNat ≤ s.sp.toNat ∧
      execPop a s = .next (s.takeError { code := .stackUnderflow, info := s.sp.toNat })) ∨
    ∃ e, execPop a s = .next (s.takeError e) ∧ OperandError s 1 a e := by
  rcases regOperand_cases s 1 a with ⟨i, rfl, -⟩ | ⟨e, he, hop⟩
  · by_cases h : stackTop.toNat ≤ s.sp.toNat
    · refine .inr (.inl ⟨i, rfl, h, ?_⟩)
      simp only [execPop, regOperand_regOpnd, bind, Except.bind, ge_iff_le, if_pos h, throw, throwThe,
        MonadExceptOf.throw, conclude_error]
    · refine .inl ⟨i, rfl, Nat.not_le.1 h, ?_⟩
      have hlt : s.sp.toNat < memSize := s.sp.isLt
      simp only [execPop, regOperand_regOpnd, bind, Except.bind, ge_iff_le, if_neg h, State.memRead,
        if_pos hlt, pure, Except.pure, conclude_ok]
      rfl
  · exact .inr (.inr ⟨e, by simp [execPop, he, bind, Except.bind], hop⟩)

theorem execCmp_cases (a b : WindowByte) (s : State) :
    (∃ i j, a = regOpnd i ∧ b = regOpnd j ∧ execCmp a b s =
      .next { s with fl := compareFlags (s.reg i) (s.reg j), pc := s.pc + 3 }) ∨
    ∃ e, execCmp a b s = .next (s.takeError e) ∧
      (OperandError s 1 a e ∨ OperandError s 2 b e) := by
  rcases regPair_cases s a b with ⟨i, j, rfl, rfl, -⟩ | ⟨e, he, hop⟩
  · exact .inl ⟨i, j, rfl, rfl, by
      simp [execCmp, bind, Except.bind, pure, Except.pure, State.applyResult]⟩
  · exact .inr ⟨e, by simp [execCmp, he, bind, Except.bind], hop⟩

/-- DIV under LS8: the quotient, or its operands' error, or DIVIDE_BY_ZERO. -/
theorem execDiv_cases {s : State} (a b : WindowByte) (h : s.params.aluExt = .ls8) :
    (∃ i j, a = regOpnd i ∧ b = regOpnd j ∧ s.reg j ≠ 0 ∧ execDiv a b s =
      .next { s.setReg i (aluDiv (s.reg i) (s.reg j)) with pc := s.pc + 3 }) ∨
    (∃ i j, a = regOpnd i ∧ b = regOpnd j ∧ s.reg j = 0 ∧
      execDiv a b s = .next (s.takeError { code := .divideByZero, info := j.val })) ∨
    ∃ e, execDiv a b s = .next (s.takeError e) ∧
      (OperandError s 1 a e ∨ OperandError s 2 b e) := by
  rcases regPair_cases s a b with ⟨i, j, rfl, rfl, -⟩ | ⟨e, he, hop⟩
  · by_cases hj : s.reg j = 0
    · refine .inr (.inl ⟨i, j, rfl, rfl, hj, ?_⟩)
      simp [execDiv, aluExtension_ls8 h, bind, Except.bind, hj, throw, throwThe, MonadExceptOf.throw]
    · refine .inl ⟨i, j, rfl, rfl, hj, ?_⟩
      simp only [execDiv, aluExtension_ls8 h, regPair_regOpnd, bind, Except.bind, if_neg hj, pure,
        Except.pure, conclude_ok]
      rfl
  · exact .inr (.inr ⟨e, by simp [execDiv, aluExtension_ls8 h, he, bind, Except.bind], hop⟩)

/-- An unknown opcode advances by one or raises, as the policy says. -/
theorem unknownOpcode_cases (s : State) (op : Byte) :
    (s.params.unknownOpcodePolicy = .permissive ∧
      s.unknownOpcode op = .next { s with pc := s.pc + 1 }) ∨
    (s.params.unknownOpcodePolicy = .strict ∧
      s.unknownOpcode op = .next (s.takeError { code := .unsupportedOpcode, info := op.toNat })) := by
  cases h : s.params.unknownOpcodePolicy with
  | permissive => exact .inl ⟨rfl, unknownOpcode_permissive h⟩
  | strict => exact .inr ⟨rfl, unknownOpcode_strict h⟩

/-- An extension byte's instruction, by ALU_EXT. -/
theorem aluExtension_cases (s : State) (op : Byte) (body : Except Raised (State × DispatchResult)) :
    (s.params.aluExt = .ls8 ∧ s.aluExtension op body = s.conclude body) ∨
    (s.params.aluExt = .unsupported ∧ s.aluExtension op body =
      .next (s.takeError { code := .unsupportedAluOp, info := op.toNat })) ∨
    (s.params.aluExt = .absent ∧ s.aluExtension op body = s.unknownOpcode op) := by
  cases h : s.params.aluExt with
  | ls8 => exact .inl ⟨rfl, aluExtension_ls8 h⟩
  | unsupported => exact .inr (.inl ⟨rfl, aluExtension_unsupported h⟩)
  | absent => exact .inr (.inr ⟨rfl, aluExtension_absent h⟩)

end Sys2Proof.Machine
end

