-- ==== Sys2Proof/Laws/Interface.lean ====
section
/-! SUPPORT. The load interface keeps the canonical form of memory, and touches memory and the run
state alone; what the reader of a program text makes of its lines; the end of a run. -/

namespace Sys2Proof.Machine

theorem loadFrom_keeps_wf {s : State} {addr : Nat} {bs : List Byte} (hm : Memory.wf s.mem = true) :
    Memory.wf (s.loadFrom addr bs).mem = true := by
  induction bs generalizing s addr with
  | nil => exact hm
  | cons b bs ih =>
    simp only [State.loadFrom]
    split
    · next t ht => exact ih (State.memWrite_keeps_wf hm ht)
    · exact hm

/-- A load of a byte that fits writes it and goes on. -/
theorem loadFrom_cons_of_lt {s : State} {addr : Nat} {b : Byte} {bs : List Byte}
    (h : addr < memSize) :
    s.loadFrom addr (b :: bs) =
      State.loadFrom { s with mem := Memory.write s.mem addr b } (addr + 1) bs := by
  simp only [State.loadFrom, State.memWrite, if_pos h]

/-- A load of a byte that does not fit ends with MEM_INDEX at its address. -/
theorem loadFrom_cons_of_ge {s : State} {addr : Nat} {b : Byte} {bs : List Byte}
    (h : memSize ≤ addr) :
    s.loadFrom addr (b :: bs) = s.takeError { code := .memIndex, info := addr } := by
  simp only [State.loadFrom, State.memWrite, if_neg (Nat.not_lt.2 h)]

/-! ### The lines of a text -/

theorem textLines_of_not_mem {acc line : List Char} (h : '\n' ∉ line) :
    textLines acc line = [acc ++ line] := by
  induction line generalizing acc with
  | nil => simp [textLines]
  | cons c cs ih =>
    rw [List.mem_cons, not_or] at h
    simp [textLines, Ne.symm h.1, ih h.2]

theorem textLines_append_newline {acc line rest : List Char} (h : '\n' ∉ line) :
    textLines acc (line ++ '\n' :: rest) = (acc ++ line) :: textLines [] rest := by
  induction line generalizing acc with
  | nil => simp [textLines]
  | cons c cs ih =>
    rw [List.mem_cons, not_or] at h
    simp [textLines, Ne.symm h.1, ih h.2]

theorem joinLines_cons_cons (l m : List Char) (ls : List (List Char)) :
    joinLines (l :: m :: ls) = l ++ '\n' :: joinLines (m :: ls) := by
  simp [joinLines, List.intercalate]

/-- A text is read back as the lines it was joined from. -/
theorem textLines_joinLines {l : List Char} {ls : List (List Char)} (h : ∀ m ∈ l :: ls, '\n' ∉ m) :
    textLines [] (joinLines (l :: ls)) = l :: ls := by
  induction ls generalizing l with
  | nil =>
    have : joinLines [l] = l := by simp [joinLines, List.intercalate]
    rw [this, textLines_of_not_mem (h l List.mem_cons_self), List.nil_append]
  | cons m ls ih =>
    rw [joinLines_cons_cons, textLines_append_newline (h l List.mem_cons_self), List.nil_append,
      ih fun k hk => h k (List.mem_cons_of_mem l hk)]

/-! ### What one line gives -/

theorem stripComment_append {token rest : List Char} (h : '#' ∉ token) :
    stripComment (token ++ rest) = token ++ stripComment rest := by
  induction token with
  | nil => rfl
  | cons c cs ih =>
    rw [List.mem_cons, not_or] at h
    simp [stripComment, Ne.symm h.1, ih h.2]

theorem stripComment_of_comment {comment : List Char}
    (h : comment = [] ∨ comment.head? = some '#') : stripComment comment = [] := by
  cases comment with
  | nil => rfl
  | cons c cs => simp_all [stripComment]

/-- A line is read as code exactly where it starts with 0 or 1. -/
theorem isCodeLine_stripComment (line : List Char) :
    isCodeLine (stripComment line) = true ↔ StartsWithBinary line := by
  cases line with
  | nil => simp [stripComment, isCodeLine, StartsWithBinary]
  | cons c cs =>
    by_cases hc : c = '#'
    · simp [stripComment, hc, isCodeLine, StartsWithBinary]
    · rw [stripComment, if_neg hc, isCodeLine]
      unfold binaryDigit
      split <;> simp_all [StartsWithBinary]

theorem binaryNumeral_eq_none {acc : Nat} {cs : List Char} (h : ∃ c ∈ cs, c ≠ '0' ∧ c ≠ '1') :
    binaryNumeral acc cs = none := by
  induction cs generalizing acc with
  | nil => simp at h
  | cons c cs ih =>
    obtain ⟨d, hd, h0, h1⟩ := h
    unfold binaryNumeral
    rcases List.mem_cons.1 hd with rfl | hd
    · unfold binaryDigit; split <;> simp_all
    · split
      · exact ih ⟨d, hd, h0, h1⟩
      · rfl

/-- A token that is short, or not binary in its leading 8 characters, gives no byte. -/
theorem lineByte_eq_none {token : List Char}
    (h : token.length < 8 ∨ ∃ c ∈ token.take 8, c ≠ '0' ∧ c ≠ '1') : lineByte token = none := by
  unfold lineByte
  split
  · rfl
  · next hlen => rw [binaryNumeral_eq_none (h.resolve_left hlen), Option.map_none]

theorem hash_not_mem_binaryText (b : Byte) : '#' ∉ binaryText b := by
  simp only [binaryText, List.mem_map, not_exists, not_and]
  intro k _
  split <;> decide

theorem binaryText_startsWithBinary (b : Byte) (tail : List Char) :
    StartsWithBinary (binaryText b ++ tail) := by
  simp only [StartsWithBinary, binaryText, List.map_cons, List.cons_append, List.head?_cons]
  split <;> simp

/-- The 8 digits of a byte give the byte, whatever follows them. -/
theorem lineByte_binaryText (b : Byte) (tail : List Char) :
    lineByte (binaryText b ++ tail) = some b := by
  have hlen : (binaryText b).length = 8 := rfl
  have hnum : ∀ c : Byte, (binaryNumeral 0 (binaryText c)).map (BitVec.ofNat 8) = some c := by decide
  have htake : (binaryText b ++ tail).take 8 = binaryText b := List.take_left' hlen
  simp only [lineByte, List.length_append, hlen, htake, hnum]
  exact if_neg (by omega)

/-! ### What a list of lines gives -/

theorem linesBytes_eq_none_of_mem {lines : List (List Char)} {line : List Char} (hm : line ∈ lines)
    (hcode : StartsWithBinary line) (hbad : lineByte (stripComment line) = none) :
    linesBytes lines = none := by
  induction lines with
  | nil => simp at hm
  | cons l ls ih =>
    unfold linesBytes
    rcases List.mem_cons.1 hm with rfl | hm
    · rw [if_pos ((isCodeLine_stripComment _).2 hcode), hbad]
    · rw [ih hm]
      split
      · cases lineByte (stripComment l) <;> rfl
      · rfl

theorem linesBytes_chars {lines : List TextLine}
    (h : ∀ line, .ignored line ∈ lines → ¬ StartsWithBinary line) :
    linesBytes (lines.map TextLine.chars) = some (lines.filterMap TextLine.byte?) := by
  induction lines with
  | nil => rfl
  | cons l ls ih =>
    have ih := ih fun line hl => h line (List.mem_cons_of_mem l hl)
    rw [List.map_cons, linesBytes]
    cases l with
    | byte b tail =>
      have hcode := (isCodeLine_stripComment _).2 (binaryText_startsWithBinary b tail)
      rw [TextLine.chars, if_pos hcode, stripComment_append (hash_not_mem_binaryText b),
        lineByte_binaryText, ih]
      rfl
    | ignored line =>
      have hskip := mt (isCodeLine_stripComment line).1 (h line List.mem_cons_self)
      rw [TextLine.chars, if_neg hskip, ih]
      rfl

/-! ### The end of a run -/

@[simp] theorem hostEnd_running : hostEnd .running = none := rfl
@[simp] theorem hostEnd_halted : hostEnd .halted = some { status := .zero, diagnostic := none } := rfl
@[simp] theorem hostEnd_faulted (r : FaultRecord) :
    hostEnd (.faulted r) = some { status := .nonZero, diagnostic := some r } := rfl

end Sys2Proof.Machine
end

