-- ==== Sys2Proof/Laws/PerInstr.lean ====
section
/-! SUPPORT. Facts about every instruction as syntax, one lemma a constructor: a well-formed
instruction's encoding is as long as its format says (30_encoding.md rules R60 and R61). -/

namespace Sys2Proof.Laws.EncodeLength

/-- The encoding of a well-formed instruction has the instruction's length. -/
def Statement (i : Instr) : Prop := i.wellFormed = true → (encode i).length = i.length

theorem one_operand {op : Byte} {a : WindowByte} (h : a.isRegister = true) :
    (op :: [a].flatMap WindowByte.bytes).length = 2 := by
  cases a with
  | byte v => rfl
  | absent => cases h

theorem two_registers {op : Byte} {a b : WindowByte} (h : (a.isRegister && b.isRegister) = true) :
    (op :: [a, b].flatMap WindowByte.bytes).length = 3 := by
  cases a with
  | absent => simp [WindowByte.isRegister] at h
  | byte v =>
    cases b with
    | absent => simp [WindowByte.isRegister] at h
    | byte w => rfl

theorem register_immediate {op : Byte} {a b : WindowByte}
    (h : (a.isRegister && b.isImmediate) = true) :
    (op :: [a, b].flatMap WindowByte.bytes).length = 3 := by
  cases a with
  | absent => simp [WindowByte.isRegister] at h
  | byte v =>
    cases b with
    | absent => simp [WindowByte.isImmediate] at h
    | byte w => rfl

theorem hlt : Statement .hlt := fun _ => rfl
theorem ldi (a imm : WindowByte) : Statement (.ldi a imm) := fun h => register_immediate h
theorem prn (a : WindowByte) : Statement (.prn a) := fun h => one_operand h
theorem push (a : WindowByte) : Statement (.push a) := fun h => one_operand h
theorem pop (a : WindowByte) : Statement (.pop a) := fun h => one_operand h
theorem jmp (a : WindowByte) : Statement (.jmp a) := fun h => one_operand h
theorem jeq (a : WindowByte) : Statement (.jeq a) := fun h => one_operand h
theorem jne (a : WindowByte) : Statement (.jne a) := fun h => one_operand h
theorem add (a b : WindowByte) : Statement (.add a b) := fun h => two_registers h
theorem mul (a b : WindowByte) : Statement (.mul a b) := fun h => two_registers h
theorem cmp (a b : WindowByte) : Statement (.cmp a b) := fun h => two_registers h
theorem sub (a b : WindowByte) : Statement (.sub a b) := fun h => two_registers h
theorem div (a b : WindowByte) : Statement (.div a b) := fun h => two_registers h
theorem and (a b : WindowByte) : Statement (.and a b) := fun h => two_registers h
theorem or (a b : WindowByte) : Statement (.or a b) := fun h => two_registers h
theorem xor (a b : WindowByte) : Statement (.xor a b) := fun h => two_registers h

end Sys2Proof.Laws.EncodeLength
end

