-- ==== Sys2Proof/Laws/Step.lean ====
section
/-! SUPPORT. What a step can do, said once, and an induction over runs packaged once. -/

namespace Sys2Proof.Machine

/-- Within memory a step fetches the opcode byte and what there is of the window. -/
theorem fetchBytes_cons {s : State} (h : s.pc < memSize) :
    s.fetchBytes = s.opcodeByte :: Memory.bytesAt s.mem (s.pc + 1) 2 := by
  simp only [State.fetchBytes, State.opcodeByte, Memory.bytesAt, if_pos h]

/-- Beyond memory there is nothing to fetch. -/
theorem fetchBytes_nil {s : State} (h : memSize ≤ s.pc) : s.fetchBytes = [] := by
  simp only [State.fetchBytes, Memory.bytesAt, if_neg (Nat.not_lt.2 h)]

/-- The first window byte is the cell there, or ABSENT beyond memory. -/
theorem headByte_bytesAt (m : Memory) (addr n : Nat) :
    headByte (Memory.bytesAt m addr (n + 1)) =
      if addr < memSize then .byte (Memory.read m addr) else .absent := by
  simp only [Memory.bytesAt]
  split <;> rfl

/-- Dropping the first byte fetched from an address leaves those of the next. -/
theorem headByte_tail_bytesAt (m : Memory) (addr n : Nat) :
    headByte (Memory.bytesAt m addr (n + 2)).tail =
      if addr + 1 < memSize then .byte (Memory.read m (addr + 1)) else .absent := by
  by_cases h : addr < memSize
  · rw [Memory.bytesAt, if_pos h, List.tail_cons, headByte_bytesAt]
  · rw [Memory.bytesAt, if_neg h, if_neg (by omega)]
    rfl

/-- The two window bytes of a fetch at pc (40_dispatch.md rule R82). -/
theorem decode_fetch {s : State} {r : OpcodeRow} (hpc : s.pc < memSize)
    (h : lookupOpcode s.params.aluExt s.opcodeByte = some r) :
    decode s.params.aluExt s.fetchBytes =
      .ok (r.build (s.shownByte (s.pc + 1)) (s.shownByte (s.pc + 2))) := by
  rw [fetchBytes_cons hpc, decode_cons_some _ h, headByte_bytesAt, headByte_tail_bytesAt]
  rfl

theorem step_running {s : State} (h : s.run = .running) : step s = runInstruction s := by
  simp [step, h]

/-- A step runs the instruction whose opcode is at pc and whose operands the window begins with. -/
theorem step_of_window {s : State} {i : Instr} (hr : s.run = .running) (hpc : s.pc < memSize)
    (hm : i.inMapping s.params.aluExt = true) (hop : s.opcodeByte = i.opcode)
    (h : i.operands = [s.shownByte (s.pc + 1), s.shownByte (s.pc + 2)].take i.operands.length) :
    step s = exec i s := by
  obtain ⟨r, hrow, hbuild⟩ := lookupOpcode_of_inMapping hm h
  rw [step_running hr, runInstruction, decode_fetch hpc (hop ▸ hrow), hbuild]

/-- A window byte beyond memory is ABSENT. -/
theorem shownByte_of_ge {s : State} {addr : Nat} (h : memSize ≤ addr) : s.shownByte addr = .absent :=
  if_neg (Nat.not_lt.2 h)

/-- A window byte within memory is the cell. -/
theorem shownByte_of_lt {s : State} {addr : Nat} (h : addr < memSize) :
    s.shownByte addr = .byte (Memory.read s.mem addr) :=
  if_pos h

/-- A step with a next state is a Running machine's. -/
theorem running_of_step {s t : State} (h : step s = .next t) : s.run = .running := by
  unfold step at h
  split at h
  · assumption
  · cases h
  · cases h

/-- Everything a step can do: a fetch beyond memory raises, an opcode of the mapping runs its
instruction on the window bytes, and any other opcode follows the policy. -/
theorem step_next_cases {s t : State} (h : step s = .next t) :
    (memSize ≤ s.pc ∧ t = s.takeError { code := .memIndex, info := s.pc }) ∨
    (s.pc < memSize ∧ ∃ r, lookupOpcode s.params.aluExt s.opcodeByte = some r ∧
      exec (r.build (s.shownByte (s.pc + 1)) (s.shownByte (s.pc + 2))) s = .next t) ∨
    (s.pc < memSize ∧ lookupOpcode s.params.aluExt s.opcodeByte = none ∧
      s.unknownOpcode s.opcodeByte = .next t) := by
  rw [step_running (running_of_step h), runInstruction] at h
  by_cases hpc : s.pc < memSize
  · cases hr : lookupOpcode s.params.aluExt s.opcodeByte with
    | some r =>
      rw [decode_fetch hpc hr] at h
      exact .inr (.inl ⟨hpc, r, rfl, h⟩)
    | none =>
      rw [fetchBytes_cons hpc, decode_cons_none _ hr] at h
      exact .inr (.inr ⟨hpc, rfl, h⟩)
  · rw [fetchBytes_nil (Nat.not_lt.1 hpc), decode_nil] at h
    exact .inl ⟨Nat.not_lt.1 hpc, (Host.Outcome.next.inj h).symm⟩

/-- An ABSENT window byte lies beyond memory. -/
theorem shownByte_absent {s : State} {addr : Nat} (h : s.shownByte addr = .absent) :
    memSize ≤ addr := by
  unfold State.shownByte at h
  split at h
  · cases h
  · omega

/-- A window byte that is there is the cell. -/
theorem shownByte_byte {s : State} {addr : Nat} {v : Byte} (h : s.shownByte addr = .byte v) :
    addr < memSize ∧ v = Memory.read s.mem addr := by
  unfold State.shownByte at h
  split at h
  · next ha => exact ⟨ha, (WindowByte.byte.inj h).symm⟩
  · cases h

/-- A run's first step, for any machine behind the host's interface. -/
theorem run_succ_of_next (M : Host.Core) {s t : M.State} (k : Nat) (h : M.step s = .next t) :
    M.run (k + 1) s = M.run k t := by
  rw [Host.Core.run.eq_def]
  simp only [h]

theorem step_of_run_succ (M : Host.Core) {s u : M.State} {k : Nat} (h : M.run (k + 1) s = .next u) :
    ∃ t, M.step s = .next t ∧ M.run k t = .next u := by
  rw [Host.Core.run.eq_def] at h
  dsimp only at h
  split at h
  · next t ht => exact ⟨t, ht, h⟩
  · cases h
  · cases h

/-- A run's first step, where there is one. -/
theorem core_run_succ {s t : State} (k : Nat) (h : step s = .next t) :
    Sys2Proof.core.run (k + 1) s = Sys2Proof.core.run k t :=
  run_succ_of_next Sys2Proof.core k h

/-- A run that goes on has a first step. -/
theorem step_of_core_run {s u : State} {k : Nat} (h : Sys2Proof.core.run (k + 1) s = .next u) :
    ∃ t, step s = .next t ∧ Sys2Proof.core.run k t = .next u :=
  step_of_run_succ Sys2Proof.core h

/-- What every step keeps, every run keeps. -/
theorem run_induction {P : State → Prop} (hstep : ∀ s t, P s → step s = .next t → P t) {k : Nat}
    {s u : State} (hs : P s) (h : Sys2Proof.core.run k s = .next u) : P u := by
  induction k generalizing s with
  | zero =>
    cases h
    exact hs
  | succ k ih =>
    obtain ⟨t, ht, hrun⟩ := step_of_core_run h
    exact ih (hstep s t hs ht) hrun

end Sys2Proof.Machine
end

