-- ==== Sys2Proof/Laws/StepEffect.lean ====
section
/-! SUPPORT. The effect of a step in terms of the byte at pc: one case for each way a Running machine
can go on, with the next state written out. Claims about every step are case analyses of this. -/

namespace Sys2Proof.Machine

/-- The operand byte at window place k is there and names register i. -/
def OperandIs (s : State) (k : Nat) (i : Fin nRegs) : Prop :=
  s.pc + k < memSize ∧ Memory.read s.mem (s.pc + k) = BitVec.ofNat 8 i.val

/-- Why a step raises e (60_exceptions.md rule R161). -/
inductive ErrorCause (s : State) : Raised → Prop where
  | fetch (h : memSize ≤ s.pc) : ErrorCause s { code := .memIndex, info := s.pc }
  | operand (k : Nat) (hpc : s.pc < memSize) (hk : k ≤ 2) (h : memSize ≤ s.pc + k) :
      ErrorCause s { code := .memIndex, info := s.pc + k }
  | register (v : Byte) (h : nRegs ≤ v.toNat) : ErrorCause s { code := .regIndex, info := v.toNat }
  | overflow (hop : s.opcodeByte = opPUSH) (h : s.sp = 0) :
      ErrorCause s { code := .stackOverflow, info := s.sp.toNat }
  | underflow (hop : s.opcodeByte = opPOP) (h : stackTop.toNat ≤ s.sp.toNat) :
      ErrorCause s { code := .stackUnderflow, info := s.sp.toNat }
  | unknownOpcode (hp : s.params.unknownOpcodePolicy = .strict)
      (h : lookupOpcode s.params.aluExt s.opcodeByte = none) :
      ErrorCause s { code := .unsupportedOpcode, info := s.opcodeByte.toNat }
  | unsupportedAlu (hx : s.params.aluExt = .unsupported) (h : isExtOpcode s.opcodeByte = true) :
      ErrorCause s { code := .unsupportedAluOp, info := s.opcodeByte.toNat }
  | divideByZero (j : Fin nRegs) (hx : s.params.aluExt = .ls8) (h : s.reg j = 0) :
      ErrorCause s { code := .divideByZero, info := j.val }

/-- The result function of an ALU opcode, and when it is in force. -/
inductive AluFunction (s : State) : (Byte → Byte → Byte) → Prop where
  | add (h : s.opcodeByte = opADD) : AluFunction s aluAdd
  | mul (h : s.opcodeByte = opMUL) : AluFunction s aluMul
  | sub (h : s.opcodeByte = opSUB) (hx : s.params.aluExt = .ls8) : AluFunction s aluSub
  | div (h : s.opcodeByte = opDIV) (hx : s.params.aluExt = .ls8) : AluFunction s aluDiv
  | and (h : s.opcodeByte = opAND) (hx : s.params.aluExt = .ls8) :
      AluFunction s fun va vb => va &&& vb
  | or (h : s.opcodeByte = opOR) (hx : s.params.aluExt = .ls8) :
      AluFunction s fun va vb => va ||| vb
  | xor (h : s.opcodeByte = opXOR) (hx : s.params.aluExt = .ls8) :
      AluFunction s fun va vb => va ^^^ vb

/-- When a jump is taken. -/
inductive JumpTaken (s : State) : Prop where
  | jmp (h : s.opcodeByte = opJMP)
  | jeq (h : s.opcodeByte = opJEQ) (hf : s.flagE = true)
  | jne (h : s.opcodeByte = opJNE) (hf : s.flagE = false)

/-- When a branch is not taken. -/
inductive BranchNotTaken (s : State) : Prop where
  | jeq (h : s.opcodeByte = opJEQ) (hf : s.flagE = false)
  | jne (h : s.opcodeByte = opJNE) (hf : s.flagE = true)

/-- How a step leads from s to t. -/
inductive StepEffect (s t : State) : Prop where
  | error (e : Raised) (hc : ErrorCause s e) (ht : t = s.takeError e)
  | unknown (hpc : s.pc < memSize) (hr : lookupOpcode s.params.aluExt s.opcodeByte = none)
      (ht : t = { s with pc := s.pc + 1 })
  | halt (hpc : s.pc < memSize) (hop : s.opcodeByte = opHLT) (ht : t = { s with run := .halted })
  | load (i : Fin nRegs) (hop : s.opcodeByte = opLDI) (hi : OperandIs s 1 i)
      (hb : s.pc + 2 < memSize)
      (ht : t = { s.setReg i (Memory.read s.mem (s.pc + 2)) with pc := s.pc + 3 })
  | print (i : Fin nRegs) (hop : s.opcodeByte = opPRN) (hi : OperandIs s 1 i)
      (ht : t = { s.emit (s.reg i) with pc := s.pc + 2 })
  | push (i : Fin nRegs) (hop : s.opcodeByte = opPUSH) (hi : OperandIs s 1 i) (hsp : s.sp ≠ 0)
      (ht : t = { s.setReg spIndex (s.sp - 1) with
        mem := Memory.write s.mem (s.sp - 1).toNat ((s.setReg spIndex (s.sp - 1)).reg i)
        pc := s.pc + 2 })
  | pop (i : Fin nRegs) (hop : s.opcodeByte = opPOP) (hi : OperandIs s 1 i)
      (hsp : s.sp.toNat < stackTop.toNat)
      (ht : t = { (s.setReg i (Memory.read s.mem s.sp.toNat)).setReg spIndex
          ((s.setReg i (Memory.read s.mem s.sp.toNat)).sp + 1) with pc := s.pc + 2 })
  | jump (i : Fin nRegs) (hj : JumpTaken s) (hi : OperandIs s 1 i)
      (ht : t = { s with pc := (s.reg i).toNat })
  | notTaken (hpc : s.pc < memSize) (hj : BranchNotTaken s) (ht : t = { s with pc := s.pc + 2 })
  | compare (i j : Fin nRegs) (hop : s.opcodeByte = opCMP) (hi : OperandIs s 1 i)
      (hj : OperandIs s 2 j)
      (ht : t = { s with fl := compareFlags (s.reg i) (s.reg j), pc := s.pc + 3 })
  | alu (f : Byte → Byte → Byte) (i j : Fin nRegs) (hf : AluFunction s f) (hi : OperandIs s 1 i)
      (hj : OperandIs s 2 j)
      (ht : t = { s.setReg i (f (s.reg i) (s.reg j)) with pc := s.pc + 3 })

/-- A window byte that names a register is there and holds its number. -/
theorem operandIs_of_shownByte {s : State} {k : Nat} {i : Fin nRegs}
    (h : s.shownByte (s.pc + k) = regOpnd i) : OperandIs s k i := by
  obtain ⟨hlt, hv⟩ := shownByte_byte h
  exact ⟨hlt, hv.symm⟩

/-- The error of an operand taken from the window has its cause. -/
theorem errorCause_of_operandError {s : State} {k : Nat} {e : Raised} (hpc : s.pc < memSize)
    (hk : k ≤ 2) (h : OperandError s k (s.shownByte (s.pc + k)) e) : ErrorCause s e := by
  rcases h with ⟨ha, rfl⟩ | ⟨v, -, hv, rfl⟩
  · exact .operand k hpc hk (shownByte_absent ha)
  · exact .register v hv

theorem errorCause_of_operandErrors {s : State} {e : Raised} (hpc : s.pc < memSize)
    (h : OperandError s 1 (s.shownByte (s.pc + 1)) e ∨ OperandError s 2 (s.shownByte (s.pc + 2)) e) :
    ErrorCause s e := by
  rcases h with h | h
  · exact errorCause_of_operandError hpc (by decide) h
  · exact errorCause_of_operandError hpc (by decide) h

theorem stepEffect_of_aluBinary {s t : State} {f : Byte → Byte → Byte} (hpc : s.pc < memSize)
    (hf : AluFunction s f)
    (h : s.conclude (s.aluBinary f (s.shownByte (s.pc + 1)) (s.shownByte (s.pc + 2))) = .next t) :
    StepEffect s t := by
  rcases aluBinary_cases s f (s.shownByte (s.pc + 1)) (s.shownByte (s.pc + 2)) with
    ⟨i, j, ha, hb, heq⟩ | ⟨e, heq, hop⟩
  · rw [heq] at h
    exact .alu f i j hf (operandIs_of_shownByte ha) (operandIs_of_shownByte hb)
      (Host.Outcome.next.inj h).symm
  · rw [heq] at h
    exact .error e (errorCause_of_operandErrors hpc hop) (Host.Outcome.next.inj h).symm

theorem stepEffect_of_jumpTo {s t : State} (hpc : s.pc < memSize) (hj : JumpTaken s)
    (h : s.conclude (s.jumpTo (s.shownByte (s.pc + 1))) = .next t) : StepEffect s t := by
  rcases jumpTo_cases s (s.shownByte (s.pc + 1)) with ⟨i, ha, heq⟩ | ⟨e, heq, hop⟩
  · rw [heq] at h
    exact .jump i hj (operandIs_of_shownByte ha) (Host.Outcome.next.inj h).symm
  · rw [heq] at h
    exact .error e (errorCause_of_operandError hpc (by decide) hop) (Host.Outcome.next.inj h).symm

theorem stepEffect_of_unknownOpcode {s t : State} (hpc : s.pc < memSize)
    (hr : lookupOpcode s.params.aluExt s.opcodeByte = none)
    (h : s.unknownOpcode s.opcodeByte = .next t) : StepEffect s t := by
  rcases unknownOpcode_cases s s.opcodeByte with ⟨-, heq⟩ | ⟨hp, heq⟩
  · rw [heq] at h
    exact .unknown hpc hr (Host.Outcome.next.inj h).symm
  · rw [heq] at h
    exact .error _ (.unknownOpcode hp hr) (Host.Outcome.next.inj h).symm

/-- An extension byte in the mapping runs under LS8 or raises under Unsupported. -/
theorem stepEffect_of_aluExtension {s t : State} {body : Except Raised (State × DispatchResult)}
    (hx : isExtOpcode s.opcodeByte = true) (hmap : s.params.aluExt ≠ .absent)
    (hbody : s.params.aluExt = .ls8 → s.conclude body = .next t → StepEffect s t)
    (h : s.aluExtension s.opcodeByte body = .next t) : StepEffect s t := by
  rcases aluExtension_cases s s.opcodeByte body with ⟨hl, heq⟩ | ⟨hu, heq⟩ | ⟨ha, -⟩
  · rw [heq] at h
    exact hbody hl h
  · rw [heq] at h
    exact .error _ (.unsupportedAlu hu hx) (Host.Outcome.next.inj h).symm
  · exact absurd ha hmap

/-- A row of the mapping is one of the tables' rows, an extension row only when ALU_EXT has it. -/
theorem lookupOpcode_row {ext : AluExt} {op : Byte} {r : OpcodeRow}
    (h : lookupOpcode ext op = some r) :
    r.opcode = op ∧ (r ∈ baseMap ∨ (ext ≠ .absent ∧ r ∈ extMap)) := by
  refine ⟨by simpa using List.find?_some h, ?_⟩
  have hmem := List.mem_of_find?_eq_some h
  cases ext with
  | absent => exact .inl hmem
  | unsupported => exact (List.mem_append.1 hmem).imp_right fun h => ⟨by decide, h⟩
  | ls8 => exact (List.mem_append.1 hmem).imp_right fun h => ⟨by decide, h⟩

/-- The effect of the eleven instructions of 30_encoding.md rule R65. -/
theorem stepEffect_of_baseMap {s t : State} {r : OpcodeRow} (hpc : s.pc < memSize)
    (hop : r.opcode = s.opcodeByte) (hr : r ∈ baseMap)
    (h : exec (r.build (s.shownByte (s.pc + 1)) (s.shownByte (s.pc + 2))) s = .next t) :
    StepEffect s t := by
  have h1 : ∀ {e}, OperandError s 1 (s.shownByte (s.pc + 1)) e → ErrorCause s e := fun h =>
    errorCause_of_operandError hpc (by decide) h
  simp only [baseMap, List.mem_cons, List.not_mem_nil, or_false] at hr
  rcases hr with rfl | rfl | rfl | rfl | rfl | rfl | rfl | rfl | rfl | rfl | rfl
  · exact .halt hpc hop.symm (Host.Outcome.next.inj h).symm
  · change execLdi _ _ s = _ at h
    rcases execLdi_cases (s.shownByte (s.pc + 1)) (s.shownByte (s.pc + 2)) s with
      ⟨i, v, ha, hb, heq⟩ | ⟨e, heq, he⟩
    · rw [heq] at h
      obtain ⟨hlt, rfl⟩ := shownByte_byte hb
      exact .load i hop.symm (operandIs_of_shownByte ha) hlt (Host.Outcome.next.inj h).symm
    · rw [heq] at h
      exact .error e (errorCause_of_operandErrors hpc he) (Host.Outcome.next.inj h).symm
  · change execPrn _ s = _ at h
    rcases execPrn_cases (s.shownByte (s.pc + 1)) s with ⟨i, ha, heq⟩ | ⟨e, heq, he⟩
    · rw [heq] at h
      exact .print i hop.symm (operandIs_of_shownByte ha) (Host.Outcome.next.inj h).symm
    · rw [heq] at h
      exact .error e (h1 he) (Host.Outcome.next.inj h).symm
  · change execPush _ s = _ at h
    rcases execPush_cases (s.shownByte (s.pc + 1)) s with
      ⟨i, ha, hsp, heq⟩ | ⟨i, -, hsp, heq⟩ | ⟨e, heq, he⟩
    · rw [heq] at h
      exact .push i hop.symm (operandIs_of_shownByte ha) hsp (Host.Outcome.next.inj h).symm
    · rw [heq] at h
      exact .error _ (.overflow hop.symm hsp) (Host.Outcome.next.inj h).symm
    · rw [heq] at h
      exact .error e (h1 he) (Host.Outcome.next.inj h).symm
  · change execPop _ s = _ at h
    rcases execPop_cases (s.shownByte (s.pc + 1)) s with
      ⟨i, ha, hsp, heq⟩ | ⟨i, -, hsp, heq⟩ | ⟨e, heq, he⟩
    · rw [heq] at h
      exact .pop i hop.symm (operandIs_of_shownByte ha) hsp (Host.Outcome.next.inj h).symm
    · rw [heq] at h
      exact .error _ (.underflow hop.symm hsp) (Host.Outcome.next.inj h).symm
    · rw [heq] at h
      exact .error e (h1 he) (Host.Outcome.next.inj h).symm
  · exact stepEffect_of_jumpTo hpc (.jmp hop.symm) h
  · change s.conclude (if s.flagE = true then _ else _) = _ at h
    split at h
    · next hf => exact stepEffect_of_jumpTo hpc (.jeq hop.symm hf) h
    · next hf =>
      exact .notTaken hpc (.jeq hop.symm (Bool.eq_false_iff.2 hf)) (Host.Outcome.next.inj h).symm
  · change s.conclude (if s.flagE = true then _ else _) = _ at h
    split at h
    · next hf => exact .notTaken hpc (.jne hop.symm hf) (Host.Outcome.next.inj h).symm
    · next hf => exact stepEffect_of_jumpTo hpc (.jne hop.symm (Bool.eq_false_iff.2 hf)) h
  · exact stepEffect_of_aluBinary hpc (.add hop.symm) h
  · exact stepEffect_of_aluBinary hpc (.mul hop.symm) h
  · change execCmp _ _ s = _ at h
    rcases execCmp_cases (s.shownByte (s.pc + 1)) (s.shownByte (s.pc + 2)) s with
      ⟨i, j, ha, hb, heq⟩ | ⟨e, heq, he⟩
    · rw [heq] at h
      exact .compare i j hop.symm (operandIs_of_shownByte ha) (operandIs_of_shownByte hb)
        (Host.Outcome.next.inj h).symm
    · rw [heq] at h
      exact .error e (errorCause_of_operandErrors hpc he) (Host.Outcome.next.inj h).symm

/-- The effect of the five instructions of 30_encoding.md rule R68. -/
theorem stepEffect_of_extMap {s t : State} {r : OpcodeRow} (hpc : s.pc < memSize)
    (hop : r.opcode = s.opcodeByte) (hx : s.params.aluExt ≠ .absent) (hr : r ∈ extMap)
    (h : exec (r.build (s.shownByte (s.pc + 1)) (s.shownByte (s.pc + 2))) s = .next t) :
    StepEffect s t := by
  have hext : isExtOpcode s.opcodeByte = true := by
    rw [← hop]
    exact List.any_eq_true.2 ⟨r, hr, by simp⟩
  simp only [extMap, List.mem_cons, List.not_mem_nil, or_false] at hr
  rcases hr with rfl | rfl | rfl | rfl | rfl
  · change s.aluExtension opSUB _ = _ at h
    rw [show opSUB = s.opcodeByte from hop] at h
    exact stepEffect_of_aluExtension hext hx
      (fun hl => stepEffect_of_aluBinary hpc (.sub hop.symm hl)) h
  · change execDiv _ _ s = _ at h
    by_cases hl : s.params.aluExt = .ls8
    · rcases execDiv_cases (s.shownByte (s.pc + 1)) (s.shownByte (s.pc + 2)) hl with
        ⟨i, j, ha, hb, -, heq⟩ | ⟨i, j, -, -, hz, heq⟩ | ⟨e, heq, he⟩
      · rw [heq] at h
        exact .alu aluDiv i j (.div hop.symm hl) (operandIs_of_shownByte ha)
          (operandIs_of_shownByte hb) (Host.Outcome.next.inj h).symm
      · rw [heq] at h
        exact .error _ (.divideByZero j hl hz) (Host.Outcome.next.inj h).symm
      · rw [heq] at h
        exact .error e (errorCause_of_operandErrors hpc he) (Host.Outcome.next.inj h).symm
    · unfold execDiv at h
      rw [show opDIV = s.opcodeByte from hop] at h
      exact stepEffect_of_aluExtension hext hx (fun hl' => absurd hl' hl) h
  · change s.aluExtension opAND _ = _ at h
    rw [show opAND = s.opcodeByte from hop] at h
    exact stepEffect_of_aluExtension hext hx
      (fun hl => stepEffect_of_aluBinary hpc (.and hop.symm hl)) h
  · change s.aluExtension opOR _ = _ at h
    rw [show opOR = s.opcodeByte from hop] at h
    exact stepEffect_of_aluExtension hext hx
      (fun hl => stepEffect_of_aluBinary hpc (.or hop.symm hl)) h
  · change s.aluExtension opXOR _ = _ at h
    rw [show opXOR = s.opcodeByte from hop] at h
    exact stepEffect_of_aluExtension hext hx
      (fun hl => stepEffect_of_aluBinary hpc (.xor hop.symm hl)) h

/-- Every step with a next state has one of the effects. -/
theorem stepEffect_of_step {s t : State} (h : step s = .next t) : StepEffect s t := by
  rcases step_next_cases h with ⟨hpc, rfl⟩ | ⟨hpc, r, hr, hexec⟩ | ⟨hpc, hr, hunk⟩
  · exact .error _ (.fetch hpc) rfl
  · obtain ⟨hop, hbase | ⟨hx, hext⟩⟩ := lookupOpcode_row hr
    · exact stepEffect_of_baseMap hpc hop hbase hexec
    · exact stepEffect_of_extMap hpc hop hx hext hexec
  · exact stepEffect_of_unknownOpcode hpc hr hunk

end Sys2Proof.Machine
end

