-- ==== Sys2Proof/Tests/Slice0.lean ====
section
/-! SUPPORT. The model's own tests. Expected values are the spec's: 30_encoding.md for the words, the
vectors V<n> of 95_test_vectors.md for the steps; each step test is one step. Then a witness for the
hypotheses of every statement that has some. -/

namespace Sys2Proof.Tests

open Sys2Proof.Machine

/-! ### WellFormed refuses an ill-formed term for each check -/

theorem test_wellFormed_refuses_register_a_of_8 :
    [Instr.ldi (.byte 8) (.byte 0), .prn (.byte 8), .push (.byte 8), .pop (.byte 8), .jmp (.byte 8),
      .jeq (.byte 8), .jne (.byte 8), .add (.byte 8) (.byte 0), .mul (.byte 8) (.byte 0),
      .cmp (.byte 8) (.byte 0), .sub (.byte 8) (.byte 0), .div (.byte 8) (.byte 0),
      .and (.byte 8) (.byte 0), .or (.byte 8) (.byte 0), .xor (.byte 8) (.byte 0)].all
      (fun i => !i.wellFormed) = true := by decide

theorem test_wellFormed_refuses_register_b_of_8 :
    [Instr.add (.byte 0) (.byte 8), .mul (.byte 0) (.byte 8), .cmp (.byte 0) (.byte 8),
      .sub (.byte 0) (.byte 8), .div (.byte 0) (.byte 8), .and (.byte 0) (.byte 8),
      .or (.byte 0) (.byte 8), .xor (.byte 0) (.byte 8)].all (fun i => !i.wellFormed) = true := by
  decide

theorem test_wellFormed_refuses_absent_operands :
    [Instr.prn .absent, .push .absent, .pop .absent, .jmp .absent, .jeq .absent, .jne .absent,
      .ldi .absent (.byte 0), .ldi (.byte 0) .absent, .add .absent (.byte 0), .add (.byte 0) .absent,
      .mul (.byte 0) .absent, .cmp (.byte 0) .absent, .sub (.byte 0) .absent,
      .div (.byte 0) .absent, .and (.byte 0) .absent, .or (.byte 0) .absent,
      .xor (.byte 0) .absent].all (fun i => !i.wellFormed) = true := by decide

theorem test_wellFormed_accepts_register_7_and_any_immediate :
    (Instr.ldi (.byte 7) (.byte 255)).wellFormed = true ∧ Instr.hlt.wellFormed = true ∧
      (Instr.add (.byte 0) (.byte 7)).wellFormed = true := by decide

/-! ### Decoding: a word for every constructor, from the binary column of 30_encoding.md rules R65 and
R68 -/

theorem test_decode_f0_and_f1r_words :
    decode .absent [0b00000001] = .ok .hlt ∧
    decode .absent [0b01000111, 0b00000010] = .ok (.prn (.byte 2)) ∧
    decode .absent [0b01000101, 0b00000011] = .ok (.push (.byte 3)) ∧
    decode .absent [0b01000110, 0b00000100] = .ok (.pop (.byte 4)) ∧
    decode .absent [0b01010100, 0b00000101] = .ok (.jmp (.byte 5)) ∧
    decode .absent [0b01010101, 0b00000110] = .ok (.jeq (.byte 6)) ∧
    decode .absent [0b01010110, 0b00000111] = .ok (.jne (.byte 7)) :=
  ⟨rfl, rfl, rfl, rfl, rfl, rfl, rfl⟩

theorem test_decode_f2_words :
    decode .absent [0b10000010, 0b00000001, 0b11110000] = .ok (.ldi (.byte 1) (.byte 0xF0)) ∧
    decode .absent [0b10100000, 0b00000001, 0b00000010] = .ok (.add (.byte 1) (.byte 2)) ∧
    decode .absent [0b10100010, 0b00000011, 0b00000100] = .ok (.mul (.byte 3) (.byte 4)) ∧
    decode .absent [0b10100111, 0b00000101, 0b00000110] = .ok (.cmp (.byte 5) (.byte 6)) :=
  ⟨rfl, rfl, rfl, rfl⟩

theorem test_decode_extension_words :
    decode .ls8 [0b10100001, 0b00000001, 0b00000010] = .ok (.sub (.byte 1) (.byte 2)) ∧
    decode .ls8 [0b10100011, 0b00000011, 0b00000100] = .ok (.div (.byte 3) (.byte 4)) ∧
    decode .unsupported [0b10101000, 0b00000101, 0b00000110] = .ok (.and (.byte 5) (.byte 6)) ∧
    decode .ls8 [0b10101010, 0b00000111, 0b00000000] = .ok (.or (.byte 7) (.byte 0)) ∧
    decode .ls8 [0b10101011, 0b00000001, 0b00001001] = .ok (.xor (.byte 1) (.byte 9)) :=
  ⟨rfl, rfl, rfl, rfl, rfl⟩

theorem test_decode_rejects_by_name :
    decode .absent [] = .error .noBytes ∧ decode .ls8 [0x00] = .error (.unknownOpcode 0x00) ∧
      decode .absent [0xA1, 0, 1] = .error (.unknownOpcode 0xA1) := ⟨rfl, rfl, rfl⟩

/-- An opcode with fewer window bytes than its format: they are ABSENT (40_dispatch.md rule R82). -/
theorem test_decode_absent_window :
    decode .absent [0xA7, 0x00] = .ok (.cmp (.byte 0) .absent) ∧
      decode .absent [0x82] = .ok (.ldi .absent .absent) := ⟨rfl, rfl⟩

/-- The length is the opcode's top two bits plus one (30_encoding.md rule R66). -/
theorem test_opcode_table_agrees_with_AABCDDDD :
    (baseMap ++ extMap).all (fun r => r.format.length == r.opcode.toNat / 64 + 1) = true := by decide

theorem test_encode_of_ldi : encode (.ldi (.byte 0) (.byte 8)) = [0x82, 0x00, 0x08] := by decide

theorem test_decodeTableWord :
    decodeTableWord 24 0x080082 = some (.ldi (.byte 0) (.byte 8)) ∧
      decodeTableWord 24 0x0000A1 = some (.sub (.byte 0) (.byte 0)) ∧
      decodeTableWord 8 0xFF01 = some .hlt ∧ decodeTableWord 8 0x00 = none := by decide

/-! ### One step on a small state -/

/-- A state with these bytes at its pc. -/
def placed (s : State) (pc : Nat) (bytes : List Byte) : State :=
  { s with pc := pc, mem := Memory.place s.mem pc bytes }

/-- The reset state with R0, R1 and SP set. -/
def regs (r0 r1 sp : Byte) : State :=
  { State.reset with regs := #v[r0, r1, 0, 0, 0, 0, 0, sp] }

/-- A state under ALU_EXT = LS8. -/
def withLs8 (s : State) : State := { s with params := { s.params with aluExt := .ls8 } }

/-- What a field is after one step, where there is a next state. -/
def after {α : Type} (s : State) (f : State → α) : Option α :=
  match step s with
  | .next t => some (f t)
  | .fault _ => none
  | .refused _ => none

/-- Faulted with this record. -/
def faulted (code : ErrorCode) (pc info : Nat) : RunState :=
  .faulted { code := code, pc := pc, info := some info }

/-- V1. -/
theorem test_add_wraps :
    after (placed (regs 200 100 0xF4) 0 [0xA0, 0, 1]) (fun t => (t.reg 0, t.reg 1, t.pc, t.fl)) =
      some (44, 100, 3, 0) := by decide

/-- V16. -/
theorem test_add_checks_a_first :
    after (placed State.reset 0x20 [0xA0, 9, 8]) State.run = some (faulted .regIndex 0x20 9) := by
  decide

/-- V7. -/
theorem test_mul_keeps_low_half :
    after (placed (regs 255 255 0xF4) 0 [0xA2, 0, 1]) (fun t => t.reg 0) = some 1 := by decide

/-- V12, with FL set before. -/
theorem test_cmp_is_unsigned :
    after { placed (regs 0 0xFF 0xF4) 0 [0xA7, 0, 1] with fl := 0b010 } State.fl = some 0b100 := by
  decide

/-- V17. -/
theorem test_cmp_absent_operand_keeps_fl :
    after { placed State.reset 0xFE [0xA7, 0] with fl := 0b010 } (fun t => (t.run, t.fl)) =
      some (faulted .memIndex 0xFE 0x100, 0b010) := by decide

/-- V18. -/
theorem test_sub_borrows :
    after (withLs8 (placed (regs 3 5 0xF4) 0 [0xA1, 0, 1])) (fun t => t.reg 0) = some 254 := by decide

/-- V28. -/
theorem test_sub_is_unknown_when_absent :
    after (placed (regs 3 5 0xF4) 0x10 [0xA1, 0, 1]) (fun t => (t.pc, t.reg 0)) =
      some (0x11, 3) := by decide

/-- V20. -/
theorem test_div_quotient :
    after (withLs8 (placed (regs 7 2 0xF4) 0 [0xA3, 0, 1])) (fun t => t.reg 0) = some 3 := by decide

/-- V22. -/
theorem test_div_by_zero :
    after (withLs8 (placed (regs 7 0 0xF4) 0x30 [0xA3, 0, 1])) (fun t => (t.run, t.reg 0)) =
      some (faulted .divideByZero 0x30 1, 7) := by decide

/-- V23. -/
theorem test_and_bits :
    after (withLs8 (placed (regs 0xF0 0x3C 0xF4) 0 [0xA8, 0, 1])) (fun t => t.reg 0) =
      some 0x30 := by decide

/-- V24. -/
theorem test_or_bits :
    after (withLs8 (placed (regs 0xF0 0x3C 0xF4) 0 [0xAA, 0, 1])) (fun t => t.reg 0) =
      some 0xFC := by decide

/-- V25. -/
theorem test_xor_bits :
    after (withLs8 (placed (regs 0xF0 0x3C 0xF4) 0 [0xAB, 0, 1])) (fun t => t.reg 0) =
      some 0xCC := by decide

/-- V27. -/
theorem test_unsupported_alu_operation :
    after { placed State.reset 0x10 [0xA1, 0, 1] with
      params := { unknownOpcodePolicy := .permissive, aluExt := .unsupported } } State.run =
      some (faulted .unsupportedAluOp 0x10 0xA1) := by decide

/-- V32. -/
theorem test_ldi_sets_sp :
    after (placed State.reset 0 [0x82, 7, 0x10]) (fun t => (t.sp, t.pc)) = some (0x10, 3) := by decide

/-- V34. -/
theorem test_ldi_absent_immediate :
    after (placed State.reset 0xFE [0x82, 0]) (fun t => (t.run, t.reg 0)) =
      some (faulted .memIndex 0xFE 0x100, 0) := by decide

/-- V36. -/
theorem test_prn_appends :
    after { placed State.reset 0 [0x47, 7] with out := [1] } (fun t => (t.out, t.pc)) =
      some ([1, 244], 2) := by decide

/-- V37. -/
theorem test_prn_absent_operand_emits_nothing :
    after (placed State.reset 0xFF [0x47]) (fun t => (t.run, t.out)) =
      some (faulted .memIndex 0xFF 0x100, []) := by decide

/-- V47. -/
theorem test_push_r7_writes_decremented_sp :
    after (placed State.reset 0 [0x45, 7]) (fun t => (t.sp, Memory.read t.mem 0xF3)) =
      some (0xF3, 0xF3) := by decide

/-- V42. -/
theorem test_push_overflow :
    after (placed (regs 1 0 0) 0x40 [0x45, 0]) State.run = some (faulted .stackOverflow 0x40 0) := by
  decide

/-- V49. -/
theorem test_pop_r7_wraps :
    after (placed { regs 0 0 0xF0 with mem := [(0xF0, 0xFF)] } 0 [0x46, 7]) State.sp = some 0 := by
  decide

/-- V45. -/
theorem test_pop_underflow :
    after (placed (regs 0 0 0xF8) 0 [0x46, 0]) State.run = some (faulted .stackUnderflow 0 0xF8) := by
  decide

/-- V62. -/
theorem test_jmp_r7 : after (placed State.reset 0 [0x54, 7]) State.pc = some 0xF4 := by decide

/-- V72. -/
theorem test_jmp_absent_operand :
    after (placed State.reset 0xFF [0x54]) State.run = some (faulted .memIndex 0xFF 0x100) := by decide

/-- V63, with the target in R1. -/
theorem test_jeq_taken :
    after { placed (regs 0 0x11 0xF4) 0x0C [0x55, 1] with fl := 0b001 } State.pc = some 0x11 := by
  decide

/-- V69. -/
theorem test_jeq_not_taken_checks_nothing :
    after { placed State.reset 0x20 [0x55, 9] with fl := 0b100 } (fun t => (t.pc, t.run)) =
      some (0x22, .running) := by decide

/-- V68, with the target in R1. -/
theorem test_jne_taken_before_any_cmp :
    after (placed (regs 0 0x40 0xF4) 0x14 [0x56, 1]) State.pc = some 0x40 := by decide

/-- V71. -/
theorem test_jne_not_taken_at_the_top :
    after { placed State.reset 0xFF [0x56] with fl := 0b001 } State.pc = some 0x101 := by decide

/-- V81. -/
theorem test_hlt_at_the_top :
    after (placed State.reset 0xFF [0x01]) (fun t => (t.run, t.pc)) = some (.halted, 0xFF) := by decide

/-- V84. -/
theorem test_unknown_opcode_advances_by_one :
    after (placed State.reset 5 [0xC2]) State.pc = some 6 := by decide

/-- V83. -/
theorem test_unknown_opcode_strict :
    after { placed State.reset 5 [] with
      params := { unknownOpcodePolicy := .strict, aluExt := .absent } } State.run =
      some (faulted .unsupportedOpcode 5 0) := by decide

/-- V85. -/
theorem test_fetch_beyond_memory :
    after { State.reset with pc := 0x100 } State.run = some (faulted .memIndex 0x100 0x100) := by decide

/-- V87. -/
theorem test_no_step_in_halted :
    step { State.reset with run := .halted } = .fault .noStepInHalted := rfl

/-! ### The fetch word, the interfaces -/

theorem test_withFetchWord_runs_the_word :
    after (State.reset.withFetchWord 24 0x080082) (fun t => (t.reg 0, t.pc)) = some (8, 3) := by decide

/-- An extension word runs under LS8; R0 - R0 = 0 and the advance is 3. -/
theorem test_withFetchWord_runs_an_extension_word :
    after (State.reset.withFetchWord 24 0xA1) (fun t => (t.pc, t.params.aluExt)) =
      some (3, .ls8) := by decide

/-- 42_move_output.md rule R122. -/
theorem test_render_output : renderOutput 72 = ['7', '2', '\n'] := by decide

/-- 30_encoding.md rule R71: a comment, an ignored line, the byte most significant bit first. -/
theorem test_loader_text :
    (State.reset.loadText (some "# LS8\n10000010 # LDI\n\n00000111".toList)).mem =
      [(0, 0x82), (1, 7)] := by decide

/-- 60_exceptions.md rule R170: a fetch beyond memory ends with a diagnostic that names its record. -/
theorem test_host_end_of_a_fault :
    after { State.reset with pc := 256 } (fun t => hostEnd t.run) =
      some (some { status := .nonZero, diagnostic := some { code := .memIndex, pc := 256, info := some 256 } }) := by
  decide

/-- 60_exceptions.md rule R175 and decision D25. -/
theorem test_trace_shows_absent_bytes :
    (State.trace { State.reset with pc := 254 }).bytes = [.byte 0, .byte 0, .absent] := by decide

/-- 30_encoding.md rule R70. -/
theorem test_instruction_text :
    instructionText (.ldi (.byte 0) (.byte 8)) = some "LDI R0,8".toList ∧
      instructionText (.mul (.byte 0) (.byte 1)) = some "MUL R0,R1".toList ∧
      instructionText .hlt = some "HLT".toList := by decide

/-! ### A witness for the hypotheses of each statement -/

theorem witness_ResetLeavesTheListedState :
    (6 : Fin nRegs) ≠ 7 ∧ Memory.read State.reset.mem 255 = 0 := by decide

theorem witness_ResetLeavesAnyState :
    ({ State.reset with run := .halted } : State).run ≠ .running := by decide

/-- A state that meets the invariant and whose step faults, on a zero divisor. -/
theorem witness_InvariantKeptByEveryStep :
    (withLs8 (placed State.reset 0 [0xA3, 0, 1])).inv = true ∧
      ∃ t, step (withLs8 (placed State.reset 0 [0xA3, 0, 1])) = .next t ∧ t.faultFree = false :=
  ⟨by decide, _, rfl, rfl⟩

theorem witness_DecodeOfEncodeIsTheInstruction :
    (Instr.ldi (.byte 7) (.byte 255)).wellFormed = true ∧
      (Instr.ldi (.byte 7) (.byte 255)).inMapping .absent = true ∧
      (Instr.xor (.byte 0) (.byte 7)).wellFormed = true ∧
      (Instr.xor (.byte 0) (.byte 7)).inMapping .ls8 = true := by decide

theorem witness_DecodedBytesBeginWithTheEncoding :
    decode .absent [0x47, 7, 99] = .ok (.prn (.byte 7)) ∧ (Instr.prn (.byte 7)).wellFormed = true :=
  ⟨rfl, rfl⟩

theorem witness_WindowBytesBeyondTheLengthAreNotReferenced :
    (0x56 : Byte) ∈ ([0x47, 0x45, 0x46, 0x54, 0x55, 0x56] : List Byte) := by decide

theorem witness_OpcodeMapIsClosed : AluExt.ls8 ≠ .absent := by decide

/-- The bad operands of the statements about one instruction, on a concrete state: the least byte that
names no register, an ABSENT byte. -/
theorem witness_AddWritesSumModulo256 : 8 ≤ (8 : Byte).toNat ∧
    Raises State.reset (exec (.add (regOpnd 0) (.byte 8)) State.reset) .regIndex 8 := ⟨by decide, rfl⟩

theorem witness_MulWritesProductModulo256 : 8 ≤ (8 : Byte).toNat ∧
    Raises State.reset (exec (.mul (.byte 8) .absent) State.reset) .regIndex 8 := ⟨by decide, rfl⟩

theorem witness_LdiWritesTheImmediate : 8 ≤ (8 : Byte).toNat ∧
    Raises State.reset (exec (.ldi (.byte 8) .absent) State.reset) .regIndex 8 := ⟨by decide, rfl⟩

theorem witness_PrnAppendsTheRegister : 8 ≤ (255 : Byte).toNat ∧
    Raises State.reset (exec (.prn (.byte 255)) State.reset) .regIndex 255 := ⟨by decide, rfl⟩

theorem witness_JmpSetsPcToTheRegister : 8 ≤ (8 : Byte).toNat ∧
    Raises State.reset (exec (.jmp (.byte 8)) State.reset) .regIndex 8 := ⟨by decide, rfl⟩

/-- Each of the three comparisons, at the boundaries of the range. -/
theorem witness_CmpReplacesFlWithOneBit :
    ((regs 0 255 0).reg 0).toNat < ((regs 0 255 0).reg 1).toNat ∧
      ((regs 255 254 0).reg 0).toNat > ((regs 255 254 0).reg 1).toNat ∧
      ((regs 255 255 0).reg 0).toNat = ((regs 255 255 0).reg 1).toNat ∧ 8 ≤ (8 : Byte).toNat := by
  decide

theorem witness_SubWritesDifferenceModulo256 :
    (withLs8 State.reset).params.aluExt = .ls8 ∧ 8 ≤ (8 : Byte).toNat := by decide
theorem witness_AndWritesBitwiseAnd :
    (withLs8 State.reset).params.aluExt = .ls8 ∧ 8 ≤ (8 : Byte).toNat := by decide
theorem witness_OrWritesBitwiseOr :
    (withLs8 State.reset).params.aluExt = .ls8 ∧ 8 ≤ (8 : Byte).toNat := by decide
theorem witness_XorWritesBitwiseXor :
    (withLs8 State.reset).params.aluExt = .ls8 ∧ 8 ≤ (8 : Byte).toNat := by decide

theorem witness_DivWritesQuotientOrRaises :
    (withLs8 (regs 7 1 0)).params.aluExt = .ls8 ∧ ((regs 7 1 0).reg 1).toNat ≠ 0 ∧
      ((regs 7 1 0).reg 2).toNat = 0 ∧ 8 ≤ (8 : Byte).toNat := by decide

/-- A state for each clause. -/
theorem witness_UnsupportedAluOperationRaises :
    (∃ s : State, s.run = .running ∧ s.pc < 256 ∧ s.params.aluExt = .unsupported ∧
      s.opcodeByte ∈ ([0xA1, 0xA3, 0xA8, 0xAA, 0xAB] : List Byte)) ∧
    ∃ (s t : State) (r : FaultRecord), s.params.aluExt ≠ .unsupported ∧ step s = .next t ∧
      t.run = .faulted r :=
  ⟨⟨{ placed State.reset 255 [0xAB] with
      params := { unknownOpcodePolicy := .strict, aluExt := .unsupported } }, by decide⟩,
    placed State.reset 255 [0x47], _, _, by decide, rfl, rfl⟩

/-- SP at 1, at 0, and at the reset value. -/
theorem witness_PushStoresBelowSp :
    Memory.wf (regs 9 0 1).mem = true ∧ ((regs 9 0 1).reg 7).toNat ≠ 0 ∧
      ((regs 9 0 0).reg 7).toNat = 0 ∧ 8 ≤ (8 : Byte).toNat := by decide

/-- SP at 0xF3 and at 0xF4, a register other than R7 and R7. -/
theorem witness_PopLoadsFromSp :
    ((regs 0 0 0xF3).reg 7).toNat < 0xF4 ∧ 0xF4 ≤ ((regs 0 0 0xF4).reg 7).toNat ∧
      (6 : Fin nRegs) ≠ 7 ∧ 8 ≤ (8 : Byte).toNat := by decide

/-- At both ends of the range of SP. -/
theorem witness_PushThenPopRoundTrips :
    (Memory.wf (regs 5 0 1).mem = true ∧ 0 < ((regs 5 0 1).reg 7).toNat ∧
      ((regs 5 0 1).reg 7).toNat ≤ 0xF4 ∧ ∃ t, exec (.push (regOpnd 0)) (regs 5 0 1) = .next t) ∧
    (0 < ((regs 5 0 0xF4).reg 7).toNat ∧ ((regs 5 0 0xF4).reg 7).toNat ≤ 0xF4 ∧
      ∃ t, exec (.push (regOpnd 0)) (regs 5 0 0xF4) = .next t) :=
  ⟨⟨by decide, by decide, by decide, _, rfl⟩, by decide, by decide, _, rfl⟩

/-- Program P6's third step: PUSH R0 at pc 6 with SP = 9. -/
theorem witness_PushIsSeenByTheNextFetch :
    Memory.wf { regs 1 0 9 with pc := 6 }.mem = true ∧ (0 : Fin nRegs) ≠ 7 ∧
      0 < (State.reg { regs 1 0 9 with pc := 6 } 7).toNat ∧
      (State.reg { regs 1 0 9 with pc := 6 } 7).toNat = 6 + 3 ∧
      ∃ t, exec (.push (regOpnd 0)) { regs 1 0 9 with pc := 6 } = .next t :=
  ⟨by decide, by decide, by decide, by decide, _, rfl⟩

theorem witness_JeqJumpsIffEqual :
    (State.fl { State.reset with fl := 0b001 }).getLsbD 0 = true ∧
      State.reset.fl.getLsbD 0 = false ∧ 8 ≤ (8 : Byte).toNat := by decide

theorem witness_JneJumpsIffNotEqual :
    State.reset.fl.getLsbD 0 = false ∧
      (State.fl { State.reset with fl := 0b001 }).getLsbD 0 = true ∧ 8 ≤ (8 : Byte).toNat := by decide

theorem witness_StepRunsTheDecodedInstruction :
    (placed State.reset 255 [0x56]).run = .running ∧
      decode (placed State.reset 255 [0x56]).params.aluExt (placed State.reset 255 [0x56]).fetchBytes =
        .ok (.jne .absent) := ⟨rfl, rfl⟩

/-- An instruction that ends at the last byte of memory. -/
theorem witness_StepRunsTheEncodedInstruction :
    (placed State.reset 253 [0xA0, 0, 7]).run = .running ∧
      (Instr.add (.byte 0) (.byte 7)).wellFormed = true ∧
      (Instr.add (.byte 0) (.byte 7)).inMapping .absent = true ∧
      253 + (encode (.add (.byte 0) (.byte 7))).length ≤ 256 ∧
      ∀ k, k < 3 → (encode (.add (.byte 0) (.byte 7)))[k]? =
        some (Memory.read (placed State.reset 253 [0xA0, 0, 7]).mem (253 + k)) := by decide

/-- pc at 255, at 256, and a step from 255 to 256. -/
theorem witness_FetchReadsPcOrRaises :
    State.reset.run = .running ∧ State.pc { State.reset with pc := 255 } < 256 ∧
      256 ≤ State.pc { State.reset with pc := 256 } ∧
      ∃ t, step { State.reset with pc := 255 } = .next t ∧ 256 ≤ t.pc :=
  ⟨rfl, by decide, by decide, _, rfl, by decide⟩

/-- A byte outside the mapping under each policy, and an extension byte under Absent. -/
theorem witness_UnknownOpcodeFollowsThePolicy :
    (placed State.reset 255 [0xA1]).run = .running ∧ (placed State.reset 255 [0xA1]).pc < 256 ∧
      (placed State.reset 255 [0xA1]).opcodeByte ∉
        ([0x01, 0x82, 0x47, 0x45, 0x46, 0x54, 0x55, 0x56, 0xA0, 0xA2, 0xA7] : List Byte) ∧
      (placed State.reset 255 [0xA1]).params.aluExt = .absent ∧
      (placed State.reset 255 [0xA1]).params.unknownOpcodePolicy = .permissive ∧
      (State.resetWith { unknownOpcodePolicy := .strict, aluExt := .ls8 }).opcodeByte = 0x00 := by
  decide

theorem witness_ErrorsArePrecise :
    ∃ (t : State) (r : FaultRecord), step (placed State.reset 255 [0x47]) = .next t ∧
      t.run = .faulted r := ⟨_, _, rfl, rfl⟩

/-- A step to each run state. -/
theorem witness_RunStateMachineIsAsTabulated :
    (∃ t, step (placed State.reset 0 [0x01]) = .next t ∧ t.run = .halted) ∧
      (∃ t r, step (placed State.reset 0 [0x46, 0]) = .next t ∧ t.run = .faulted r) ∧
      (∃ t, step State.reset = .next t ∧ State.reset.pc < 256 ∧ State.reset.opcodeByte ≠ 0x01 ∧
        t.run = .running) ∧ State.run { State.reset with run := .halted } ≠ .running :=
  ⟨⟨_, rfl, rfl⟩, ⟨_, _, rfl, rfl⟩, ⟨_, rfl, by decide, by decide, rfl⟩, by decide⟩

/-- A step for each clause: LDI; SUB under LS8 and under Absent; PRN; JMP; JEQ and JNE taken and not;
an unknown opcode; one that stops Running. -/
theorem witness_PcMovesByTheDispatchResult :
    after (placed State.reset 0 [0x82, 0, 1]) (fun t => (t.run, t.pc)) = some (.running, 3) ∧
    after (withLs8 (placed State.reset 0 [0xA1, 0, 1])) (fun t => (t.run, t.pc)) =
      some (.running, 3) ∧
    after (placed State.reset 0 [0xA1, 0, 1]) (fun t => (t.run, t.pc)) = some (.running, 1) ∧
    after (placed State.reset 0 [0x47, 0]) (fun t => (t.run, t.pc)) = some (.running, 2) ∧
    after (placed State.reset 0 [0x54, 7]) (fun t => (t.run, t.pc)) = some (.running, 0xF4) ∧
    after { placed State.reset 0 [0x55, 7] with fl := 0b001 } (fun t => (t.run, t.pc)) =
      some (.running, 0xF4) ∧
    after (placed State.reset 0 [0x56, 7]) (fun t => (t.run, t.pc)) = some (.running, 0xF4) ∧
    after (placed State.reset 0 [0x55, 7]) (fun t => (t.run, t.pc)) = some (.running, 2) ∧
    after { placed State.reset 0 [0x56, 7] with fl := 0b001 } (fun t => (t.run, t.pc)) =
      some (.running, 2) ∧
    after State.reset (fun t => (t.run, t.pc)) = some (.running, 1) ∧
    after (placed State.reset 9 [0x01]) (fun t => (t.run, t.pc)) = some (.halted, 9) := by decide

/-- The highest pc a step reaches: a JNE that is not taken, at 0xFF. -/
theorem witness_NoStepMovesPcBeyond0x101 :
    after { placed State.reset 0xFF [0x56] with fl := 0b001 } State.pc = some 0x101 := by decide

/-- A step that changes FL and completes, and a branch with another FL of the same Equal bit. -/
theorem witness_FlIsWrittenByCmpAndReadByBranches :
    (∃ t, step (placed State.reset 0 [0xA7, 0, 0]) = .next t ∧ t.fl ≠ State.reset.fl ∧
        (placed State.reset 0 [0xA7, 0, 0]).opcodeByte = 0xA7 ∧ t.run = .running) ∧
      ∃ t, step (placed State.reset 0 [0x55, 0]) = .next t ∧
        (0b110 : BitVec flagWidth).getLsbD 0 = State.reset.fl.getLsbD 0 :=
  ⟨⟨_, rfl, by decide, rfl, rfl⟩, _, rfl, by decide⟩

theorem witness_OnlyPushWritesMemory :
    ∃ t, step (placed (regs 9 0 1) 0x40 [0x45, 0]) = .next t ∧
      Memory.read t.mem 0 ≠ Memory.read (placed (regs 9 0 1) 0x40 [0x45, 0]).mem 0 :=
  ⟨_, rfl, by decide⟩

theorem witness_OnlyPrnEmits :
    ∃ t, step (placed (regs 9 0 1) 0 [0x47, 0]) = .next t ∧ t.out = [9] := ⟨_, rfl, rfl⟩

/-- A register named by operand a, and SP. -/
theorem witness_RegistersChangeOnlyAsTabulated :
    (∃ t, step (placed State.reset 0 [0x82, 6, 1]) = .next t ∧ t.reg 6 ≠ State.reset.reg 6) ∧
      ∃ t, step (placed State.reset 0 [0x45, 6]) = .next t ∧ t.reg 7 ≠ State.reset.reg 7 :=
  ⟨⟨_, rfl, by decide⟩, _, rfl, by decide⟩

theorem witness_NoStepWritesTheParameters : ∃ t, step State.reset = .next t := ⟨_, rfl⟩

theorem witness_ZeroMemoryIsWalkedToAFetchFault :
    State.reset.run = .running ∧ State.reset.params.unknownOpcodePolicy = .permissive ∧
      State.reset.pc ≤ 256 ∧ Memory.read State.reset.mem 0 = 0 ∧ Memory.read State.reset.mem 255 = 0 := by
  decide

theorem witness_CanonicalMemoriesThatReadAlikeAreEqual :
    Memory.wf [(0, 1), (255, 2)] = true ∧ Memory.wf (Memory.write [(255, 2)] 0 1) = true ∧
      Memory.read [(0, 1), (255, 2)] 255 = Memory.read (Memory.write [(255, 2)] 0 1) 255 := by decide

/-- The last address of memory, and the first beyond it. -/
theorem witness_AccessPrimitivesCheckTheAddress :
    Memory.wf State.reset.mem = true ∧ (255 : Nat) < 256 ∧ (256 : Nat) ≤ 256 := by decide

/-- The longest program that fits, and one byte more. -/
theorem witness_LoadWritesTheProgramOrFaults :
    (List.replicate 256 (1 : Byte)).length ≤ 256 ∧ 256 < (List.replicate 257 (1 : Byte)).length := by
  rw [List.length_replicate, List.length_replicate]
  decide

/-- A comment line, a byte's line with its comment, and an empty line. -/
theorem witness_LoaderTextGivesBytesOrLoadError_bytes :
    let lines : List TextLine := [.ignored "# LS8".toList, .byte 0x82 " # LDI".toList, .ignored []]
    (∀ l ∈ lines, '\n' ∉ l.chars) ∧ ∀ line, .ignored line ∈ lines → ¬ StartsWithBinary line := by
  refine ⟨by decide, ?_⟩
  simp [StartsWithBinary]

/-- A token that is not binary, after a good line and before another, and a short one alone. -/
theorem witness_LoaderTextGivesBytesOrLoadError_loadError :
    (∀ l ∈ ["10000010".toList] ++ ("1000002x".toList ++ "# no".toList) :: ["00000001".toList],
        '\n' ∉ l) ∧
      '#' ∉ "1000002x".toList ∧ "# no".toList.head? = some '#' ∧ StartsWithBinary "1000002x".toList ∧
      (∃ c ∈ "1000002x".toList.take 8, c ≠ '0' ∧ c ≠ '1') ∧
      '#' ∉ ['1'] ∧ StartsWithBinary ['1'] ∧ ['1'].length < 8 :=
  ⟨by decide, by decide, by decide, .inr (by decide), ⟨'x', by decide⟩, by decide, .inr rfl, by decide⟩

/-- A Halted state and a Faulted one have ended. -/
theorem witness_RunEndsWithStatusAndDiagnostic :
    hostEnd { State.reset with run := .halted }.run ≠ none ∧
      hostEnd State.reset.takeLoadError.run ≠ none := by decide

/-- An ADD cut off after its first operand, and a PRN with no operand byte. -/
theorem witness_CutOffInstructionsDecodeWithAbsentOperands :
    (Instr.add (.byte 9) .absent).inMapping .absent = true ∧
      (Instr.add (.byte 9) .absent).operands = [9].map .byte ++ List.replicate 1 .absent ∧
      (Instr.prn .absent).operands = [].map .byte ++ List.replicate 1 .absent := by decide

/-- The instruction of the window at 0xFE, one operand ABSENT and one that names no register. -/
theorem witness_WindowBytesBeyondMemoryAreAbsent_window :
    let s := placed State.reset 0xFE [0xA0, 9]
    s.run = .running ∧ s.pc < 256 ∧ (Instr.add (.byte 9) .absent).inMapping s.params.aluExt = true ∧
      s.opcodeByte = (Instr.add (.byte 9) .absent).opcode ∧
      (Instr.add (.byte 9) .absent).operands = ([1, 2].map fun k =>
        if s.pc + k < 256 then WindowByte.byte (Memory.read s.mem (s.pc + k)) else .absent).take 2 ∧
      8 ≤ (Memory.read s.mem 0xFF).toNat := by decide

/-- The other clauses: a reference at 0xFF, one at 0xFE, a HLT and a branch not taken at 0xFF. -/
theorem witness_WindowBytesBeyondMemoryAreAbsent_clauses :
    (placed State.reset 0xFF [0x47]).opcodeByte = 0x47 ∧ (placed State.reset 0xFF [0x47]).pc = 0xFF ∧
      (placed State.reset 0xFE [0x82, 7]).opcodeByte = 0x82 ∧
      (Memory.read (placed State.reset 0xFE [0x82, 7]).mem 0xFF).toNat < 8 ∧
      (placed State.reset 0xFF [0x01]).opcodeByte = 0x01 ∧
      (placed State.reset 0xFF [0x55]).opcodeByte = 0x55 ∧
      (placed State.reset 0xFF [0x55]).fl.getLsbD 0 = false := by decide

end Sys2Proof.Tests
end

section
/-! PROOF. The family of 10_state.md: the reset state (rule R38), how far a step moves pc (rule R27),
and who writes and who reads FL (rule R30). -/

namespace Sys2Proof.Machine

/-! ### Reset (10_state.md rule R38) -/

/-- Settles O1: the file `#v[0, 0, 0, 0, 0, 0, 0, stackTop]` is read at each index, and every other
field of the reset state stands in its definition. -/
theorem resetLeavesTheListedState : Obligations.ResetLeavesTheListedState := by
  unfold Obligations.ResetLeavesTheListedState
  have hregs : ∀ i : Fin nRegs, i ≠ 7 → State.reset.reg i = 0 := by decide
  have hmem : ∀ addr, addr < 256 → Memory.read State.reset.mem addr = 0 := fun addr _ =>
    Memory.read_nil addr
  exact ⟨hregs, rfl, rfl, rfl, hmem, rfl, rfl⟩

/-! ### pc (10_state.md rule R27) -/

/-- A byte outside the mapping is none of the eleven of 30_encoding.md rule R65, and one of the five
of rule R68 only where ALU_EXT leaves these out. -/
theorem not_mem_of_lookupOpcode_none {ext : AluExt} {op : Byte} (h : lookupOpcode ext op = none) :
    op ∉ baseMap.map OpcodeRow.opcode ∧ (op ∈ extMap.map OpcodeRow.opcode → ext = .absent) := by
  have hnone : ∀ r ∈ opcodeMap ext, r.opcode ≠ op := by
    simpa [lookupOpcode] using h
  refine ⟨fun hop => ?_, fun hop => ?_⟩
  · obtain ⟨r, hr, hrop⟩ := List.mem_map.1 hop
    refine hnone r ?_ hrop
    cases ext with
    | absent => exact hr
    | unsupported | ls8 => exact List.mem_append_left _ hr
  · obtain ⟨r, hr, hrop⟩ := List.mem_map.1 hop
    cases ext with
    | absent => rfl
    | unsupported | ls8 => exact absurd hrop (hnone r (List.mem_append_right _ hr))

/-- FL.E in the spelling `simp` gives bit 0. -/
theorem flagE_eq (s : State) : s.flagE = s.fl[0] := rfl

/-- Settles O37, by the effect of the step: each names the opcode bytes it belongs to and writes out
the new pc. -/
theorem pcMovesByTheDispatchResult : Obligations.PcMovesByTheDispatchResult := by
  unfold Obligations.PcMovesByTheDispatchResult
  intro s t h
  have hrun : s.run = .running := running_of_step h
  cases stepEffect_of_step h with
  | error e hc ht => subst ht; simp
  | halt hpc hop ht => subst ht; simp
  | unknown hpc hr ht =>
    subst ht
    obtain ⟨hbase, hext⟩ := not_mem_of_lookupOpcode_none hr
    have hne : s.opcodeByte ∉ [0x01, 0x82, 0x47, 0x45, 0x46, 0x54, 0x55, 0x56, 0xA0, 0xA2, 0xA7] :=
      hbase
    have hls8 : s.opcodeByte ∈ [0xA1, 0xA3, 0xA8, 0xAA, 0xAB] → s.params.aluExt ≠ .ls8 := by
      intro hop
      rw [hext hop]
      decide
    simp only [List.mem_cons, not_or, BitVec.ofNat_eq_ofNat] at hne
    simpa [hrun, hne] using hls8
  | load i hop hi hb ht => subst ht; simp [hrun, hop, opLDI]
  | print i hop hi ht => subst ht; simp [hrun, hop, opPRN]
  | push i hop hi hsp ht => subst ht; simp [hrun, hop, opPUSH]
  | pop i hop hi hsp ht => subst ht; simp [hrun, hop, opPOP]
  | notTaken hpc hj ht =>
    subst ht
    cases hj with
    | jeq hop hf => rw [flagE_eq] at hf; simp [hrun, hop, opJEQ, hf]
    | jne hop hf => rw [flagE_eq] at hf; simp [hrun, hop, opJNE, hf]
  | jump i hj hi ht =>
    subst ht
    have htarget : ∃ i' : Fin nRegs, Memory.read s.mem (s.pc + 1) = BitVec.ofNat 8 i'.val ∧
        (s.reg i).toNat = (s.reg i').toNat := ⟨i, hi.2, rfl⟩
    cases hj with
    | jmp hop => simpa [hrun, hop, opJMP] using htarget
    | jeq hop hf => rw [flagE_eq] at hf; simpa [hrun, hop, opJEQ, hf] using htarget
    | jne hop hf => rw [flagE_eq] at hf; simpa [hrun, hop, opJNE, hf] using htarget
  | compare i j hop hi hj ht => subst ht; simp [hrun, hop, opCMP]
  | alu f i j hf hi hj ht =>
    subst ht
    cases hf with
    | add hop => simp [hrun, hop, opADD]
    | mul hop => simp [hrun, hop, opMUL]
    | sub hop hx => simp [hrun, hop, hx, opSUB]
    | div hop hx => simp [hrun, hop, hx, opDIV]
    | and hop hx => simp [hrun, hop, hx, opAND]
    | or hop hx => simp [hrun, hop, hx, opOR]
    | xor hop hx => simp [hrun, hop, hx, opXOR]

/-! ### FL as it is written (10_state.md rule R30, first sentence) -/

/-- A step leaves FL, or it is CMP's and leaves the flags of a comparison. -/
theorem fl_of_step {s t : State} (h : step s = .next t) :
    t.fl = s.fl ∨ s.opcodeByte = opCMP ∧ ∃ va vb, t.fl = compareFlags va vb := by
  cases stepEffect_of_step h with
  | compare i j hop _ _ ht => exact .inr ⟨hop, s.reg i, s.reg j, by rw [ht]⟩
  | error _ _ ht | unknown _ _ ht | halt _ _ ht | load _ _ _ _ ht | print _ _ _ ht
  | push _ _ _ _ ht | pop _ _ _ _ ht | jump _ _ _ ht | notTaken _ _ ht | alu _ _ _ _ _ _ ht =>
    exact .inl (by subst ht; rfl)

theorem compareFlags_one_bit (va vb : Byte) :
    compareFlags va vb = 0b001 ∨ compareFlags va vb = 0b010 ∨ compareFlags va vb = 0b100 := by
  unfold compareFlags
  split
  · exact .inr (.inr rfl)
  · split
    · exact .inr (.inl rfl)
    · exact .inl rfl

/-! ### FL as it is read (10_state.md rule R30, second sentence)

Another value in FL before an operation is that value in FL after it: for every operation but CMP,
which replaces FL, and for a branch where FL.E is the same. -/

/-- The state with another value in FL. -/
def State.withFl (s : State) (f : BitVec flagWidth) : State := { s with fl := f }

/-- The result of an instruction's body, with another value in FL. -/
def bodyWithFl (f : BitVec flagWidth) (body : Except Raised (State × DispatchResult)) :
    Except Raised (State × DispatchResult) :=
  (fun p => (p.1.withFl f, p.2)) <$> body

/-- An outcome with another value in the FL of its next state. -/
def outcomeWithFl (f : BitVec flagWidth) :
    Host.Outcome State Fault Refusal → Host.Outcome State Fault Refusal
  | .next t => .next (t.withFl f)
  | .fault r => .fault r
  | .refused r => .refused r

section
variable (s : State) (f : BitVec flagWidth)

@[simp] theorem withFl_params : (s.withFl f).params = s.params := rfl
@[simp] theorem withFl_reg (i : Fin nRegs) : (s.withFl f).reg i = s.reg i := rfl
@[simp] theorem withFl_sp : (s.withFl f).sp = s.sp := rfl
@[simp] theorem withFl_setReg (i : Fin nRegs) (v : Byte) :
    (s.withFl f).setReg i v = (s.setReg i v).withFl f := rfl
@[simp] theorem withFl_emit (v : Byte) : (s.withFl f).emit v = (s.emit v).withFl f := rfl
@[simp] theorem withFl_opnd (k : Nat) (w : WindowByte) : (s.withFl f).opnd k w = s.opnd k w := rfl
@[simp] theorem withFl_regOperand (k : Nat) (w : WindowByte) :
    (s.withFl f).regOperand k w = s.regOperand k w := rfl
@[simp] theorem withFl_regPair (a b : WindowByte) : (s.withFl f).regPair a b = s.regPair a b := rfl
@[simp] theorem withFl_memRead (addr : Nat) : (s.withFl f).memRead addr = s.memRead addr := rfl

@[simp] theorem withFl_memWrite (addr : Nat) (v : Byte) :
    (s.withFl f).memWrite addr v = (fun t => t.withFl f) <$> s.memWrite addr v := by
  unfold State.memWrite
  split <;> rfl

theorem withFl_applyResult (r : DispatchResult) :
    (s.withFl f).applyResult r = (s.applyResult r).withFl f := by
  cases r <;> rfl

/-! #### Bodies -/

@[simp] theorem bodyWithFl_ok (t : State) (r : DispatchResult) :
    bodyWithFl f (.ok (t, r)) = .ok (t.withFl f, r) := rfl

@[simp] theorem bodyWithFl_pure (t : State) (r : DispatchResult) :
    bodyWithFl f (pure (t, r)) = pure (t.withFl f, r) := rfl

@[simp] theorem bodyWithFl_throw (e : Raised) : bodyWithFl f (throw e) = throw e := rfl

@[simp] theorem bodyWithFl_bind {α : Type} (x : Except Raised α)
    (k : α → Except Raised (State × DispatchResult)) :
    bodyWithFl f (x >>= k) = x >>= fun v => bodyWithFl f (k v) :=
  map_bind _ x k

@[simp] theorem bodyWithFl_map {α : Type} (x : Except Raised α) (g : α → State × DispatchResult) :
    bodyWithFl f (g <$> x) = (fun v => ((g v).1.withFl f, (g v).2)) <$> x :=
  Functor.map_map g _ x

@[simp] theorem bodyWithFl_ite (c : Prop) [Decidable c]
    (x y : Except Raised (State × DispatchResult)) :
    bodyWithFl f (if c then x else y) = if c then bodyWithFl f x else bodyWithFl f y :=
  apply_ite _ c x y

theorem aluBinary_withFl (g : Byte → Byte → Byte) (a b : WindowByte) :
    (s.withFl f).aluBinary g a b = bodyWithFl f (s.aluBinary g a b) := by
  simp [State.aluBinary]

@[simp] theorem jumpTo_withFl (a : WindowByte) :
    (s.withFl f).jumpTo a = bodyWithFl f (s.jumpTo a) := by
  simp [State.jumpTo]

/-! #### How a body ends -/

variable {s f} {body body' : Except Raised (State × DispatchResult)}

theorem conclude_withFl (h : body' = bodyWithFl f body) :
    (s.withFl f).conclude body' = outcomeWithFl f (s.conclude body) := by
  subst h
  cases body with
  | ok p => exact congrArg Host.Outcome.next (withFl_applyResult p.1 f p.2)
  | error e => rfl

theorem unknownOpcode_withFl (op : Byte) :
    (s.withFl f).unknownOpcode op = outcomeWithFl f (s.unknownOpcode op) := by
  unfold State.unknownOpcode
  rw [withFl_params]
  cases s.params.unknownOpcodePolicy with
  | permissive => rfl
  | strict => rfl

theorem aluExtension_withFl (op : Byte) (h : body' = bodyWithFl f body) :
    (s.withFl f).aluExtension op body' = outcomeWithFl f (s.aluExtension op body) := by
  unfold State.aluExtension
  rw [withFl_params]
  cases s.params.aluExt with
  | ls8 => exact conclude_withFl h
  | unsupported => rfl
  | absent => exact unknownOpcode_withFl op

/-! #### Instructions -/

/-- CMP leaves the same state whatever FL held, or it raises the same error and leaves FL. -/
theorem execCmp_withFl (s : State) (f : BitVec flagWidth) (a b : WindowByte) :
    execCmp a b (s.withFl f) = execCmp a b s ∨
      ∃ e, execCmp a b s = .next (s.takeError e) ∧
        execCmp a b (s.withFl f) = .next ((s.takeError e).withFl f) := by
  unfold execCmp
  rw [withFl_regPair]
  cases s.regPair a b with
  | ok p => exact .inl rfl
  | error e => exact .inr ⟨e, rfl, rfl⟩

/-- No instruction but CMP writes FL, and none but a branch reads it. -/
theorem exec_withFl {i : Instr} (hcmp : i.opcode ≠ opCMP)
    (hbr : i.opcode ∈ [opJEQ, opJNE] → (s.withFl f).flagE = s.flagE) :
    exec i (s.withFl f) = outcomeWithFl f (exec i s) := by
  cases i with
  | hlt => rfl
  | ldi a imm => exact conclude_withFl (by simp)
  | prn a => exact conclude_withFl (by simp)
  | push a => exact conclude_withFl (by simp)
  | pop a => exact conclude_withFl (by simp)
  | jmp a => exact conclude_withFl (jumpTo_withFl s f a)
  | jeq a => exact conclude_withFl (by simp [hbr (.head _)])
  | jne a => exact conclude_withFl (by simp [hbr (.tail _ (.head _))])
  | cmp a b => exact absurd rfl hcmp
  | add a b | mul a b => exact conclude_withFl (aluBinary_withFl s f _ a b)
  | sub a b | and a b | or a b | xor a b =>
    exact aluExtension_withFl _ (aluBinary_withFl s f _ a b)
  | div a b => exact aluExtension_withFl _ (by simp only [bodyWithFl_bind, bodyWithFl_ite]; rfl)

/-! #### Steps -/

variable (hr : s.run = .running)
include hr

/-- Beyond memory the fetch raises (40_dispatch.md rule R81). -/
theorem step_of_pc_ge (hpc : memSize ≤ s.pc) :
    step s = .next (s.takeError { code := .memIndex, info := s.pc }) := by
  rw [step_running hr, runInstruction, fetchBytes_nil hpc, decode_nil]
  rfl

/-- An opcode of the mapping runs its row's instruction (40_dispatch.md rule R83). -/
theorem step_of_lookup_some {r : OpcodeRow} (hpc : s.pc < memSize)
    (h : lookupOpcode s.params.aluExt s.opcodeByte = some r) :
    step s = exec (r.build (s.shownByte (s.pc + 1)) (s.shownByte (s.pc + 2))) s := by
  rw [step_running hr, runInstruction, decode_fetch hpc h]

/-- An opcode outside the mapping follows the policy (40_dispatch.md rule R86). -/
theorem step_of_lookup_none (hpc : s.pc < memSize)
    (h : lookupOpcode s.params.aluExt s.opcodeByte = none) :
    step s = s.unknownOpcode s.opcodeByte := by
  rw [step_running hr, runInstruction, fetchBytes_cons hpc, decode_cons_none _ h]

/-- No step but CMP's writes FL, and none but a branch's reads it. -/
theorem step_withFl (hcmp : s.opcodeByte ≠ opCMP)
    (hbr : s.opcodeByte ∈ [opJEQ, opJNE] → (s.withFl f).flagE = s.flagE) :
    step (s.withFl f) = outcomeWithFl f (step s) := by
  have hr' : (s.withFl f).run = .running := hr
  by_cases hpc : s.pc < memSize
  · cases hl : lookupOpcode s.params.aluExt s.opcodeByte with
    | some r =>
      rw [step_of_lookup_some hr hpc hl, step_of_lookup_some hr' hpc hl]
      rw [← build_opcode hl (s.shownByte (s.pc + 1)) (s.shownByte (s.pc + 2))] at hcmp hbr
      exact exec_withFl hcmp hbr
    | none =>
      rw [step_of_lookup_none hr hpc hl, step_of_lookup_none hr' hpc hl]
      exact unknownOpcode_withFl s.opcodeByte
  · rw [step_of_pc_ge hr (Nat.not_lt.1 hpc), step_of_pc_ge hr' (Nat.not_lt.1 hpc)]
    rfl

/-- CMP's step leads to the same state whatever FL held, or it raises the same error and leaves FL. -/
theorem step_withFl_of_cmp (f : BitVec flagWidth) (hcmp : s.opcodeByte = opCMP) :
    step (s.withFl f) = step s ∨
      ∃ e, step s = .next (s.takeError e) ∧ step (s.withFl f) = .next ((s.takeError e).withFl f) := by
  have hr' : (s.withFl f).run = .running := hr
  by_cases hpc : s.pc < memSize
  · let i := Instr.cmp (s.shownByte (s.pc + 1)) (s.shownByte (s.pc + 2))
    have hm : i.inMapping s.params.aluExt = true := by
      cases s.params.aluExt with
      | absent | unsupported | ls8 => rfl
    have hstep : step s = exec i s := step_of_window hr hpc hm hcmp rfl
    have hstep' : step (s.withFl f) = exec i (s.withFl f) := step_of_window hr' hpc hm hcmp rfl
    rw [hstep, hstep']
    exact execCmp_withFl s f _ _
  · exact .inr ⟨_, step_of_pc_ge hr (Nat.not_lt.1 hpc), step_of_pc_ge hr' (Nat.not_lt.1 hpc)⟩

end

/-- Settles O39: the first part from the flags a step leaves, the second from the steps of a state
with another FL, CMP's apart from the others. -/
theorem flIsWrittenByCmpAndReadByBranches : Obligations.FlIsWrittenByCmpAndReadByBranches := by
  unfold Obligations.FlIsWrittenByCmpAndReadByBranches
  refine ⟨fun s t h => ⟨fun hop => ?_, ?_⟩, fun s t f h hbr => ?_⟩
  · exact (fl_of_step h).resolve_right fun hcmp => hop hcmp.1
  · rcases fl_of_step h with hfl | ⟨-, va, vb, hfl⟩
    · exact .inl hfl
    · exact .inr (hfl ▸ compareFlags_one_bit va vb)
  · have hr : s.run = .running := running_of_step h
    by_cases hcmp : s.opcodeByte = opCMP
    · rcases step_withFl_of_cmp hr f hcmp with hsame | ⟨e, he, he'⟩
      · exact ⟨t, hsame.trans h, rfl, fun _ _ => rfl⟩
      · obtain rfl : s.takeError e = t := Host.Outcome.next.inj (he.symm.trans h)
        exact ⟨_, he', rfl, fun _ hrun => nomatch hrun⟩
    · have hstep : step (s.withFl f) = .next (t.withFl f) := by
        rw [step_withFl hr hcmp hbr, h, outcomeWithFl]
      exact ⟨_, hstep, rfl, fun hop => absurd hop hcmp⟩

end Sys2Proof.Machine
end

section
/-! PROOF. The family of 20_memory.md: the checked accesses (rule R41). -/

namespace Sys2Proof.Machine

/-! ### The two accesses by address (20_memory.md rule R41) -/

section
variable {s : State} {addr : Nat}

theorem memRead_of_lt (h : addr < memSize) : s.memRead addr = .ok (Memory.read s.mem addr) :=
  if_pos h

theorem memRead_of_ge (h : memSize ≤ addr) :
    s.memRead addr = .error { code := .memIndex, info := addr } :=
  if_neg (Nat.not_lt.2 h)

theorem memWrite_of_lt {v : Byte} (h : addr < memSize) :
    s.memWrite addr v = .ok { s with mem := Memory.write s.mem addr v } :=
  if_pos h

theorem memWrite_of_ge {v : Byte} (h : memSize ≤ addr) :
    s.memWrite addr v = .error { code := .memIndex, info := addr } :=
  if_neg (Nat.not_lt.2 h)

end

/-- Settles O46: below `memSize` by what a read returns after a write to the same and to another
address; the canonical form is needed for the same address alone. -/
theorem accessPrimitivesCheckTheAddress : Obligations.AccessPrimitivesCheckTheAddress := by
  unfold Obligations.AccessPrimitivesCheckTheAddress
  intro s addr v hm
  refine ⟨fun hlt => ?_, fun hge => ?_⟩
  · have hself : Memory.read (Memory.write s.mem addr v) addr = v := Memory.read_write_self hm
    have hother : ∀ other, other ≠ addr →
        Memory.read (Memory.write s.mem addr v) other = Memory.read s.mem other :=
      fun _ hne => Memory.read_write_ne hne
    exact ⟨memRead_of_lt hlt, _, memWrite_of_lt hlt, rfl, hself, hother⟩
  · exact ⟨memRead_of_ge hge, memWrite_of_ge hge⟩

end Sys2Proof.Machine
end

section
/-! PROOF. The family of 40_dispatch.md: the fetch (rule R81), the operand window at the top of memory
(rule R82), unknown opcodes (rule R86), precise errors (rule R87) and where a step exists (rule R89). -/

namespace Sys2Proof.Machine

/-! ### The fetch (40_dispatch.md rule R81) -/

/-- A step leaves pc, sets it to a register's value, or advances it by 1, 2 or 3. -/
theorem pc_of_step {s t : State} (h : step s = .next t) :
    t.pc = s.pc ∨ (∃ i, t.pc = (s.reg i).toNat) ∨ ∃ n, n ∈ [1, 2, 3] ∧ t.pc = s.pc + n := by
  cases stepEffect_of_step h with
  | error _ _ ht => exact .inl (by rw [ht, takeError_pc])
  | halt _ _ ht => exact .inl (by rw [ht])
  | jump i _ _ ht => exact .inr (.inl ⟨i, by rw [ht]⟩)
  | unknown _ _ ht => exact .inr (.inr ⟨1, by decide, by rw [ht]⟩)
  | print _ _ _ ht | push _ _ _ _ ht | pop _ _ _ _ ht | notTaken _ _ ht =>
    exact .inr (.inr ⟨2, by decide, by rw [ht]⟩)
  | load _ _ _ _ ht | compare _ _ _ _ _ ht | alu _ _ _ _ _ _ ht =>
    exact .inr (.inr ⟨3, by decide, by rw [ht]⟩)

/-- Settles O32: a pc that is kept or that a register gives lies below 256, so only an advance leaves
memory. -/
theorem fetchReadsPcOrRaises : Obligations.FetchReadsPcOrRaises := by
  unfold Obligations.FetchReadsPcOrRaises
  intro s hr
  refine ⟨fun hpc => ?_, fun hpc => step_of_pc_ge hr hpc, fun t h hpc hout => ?_⟩
  · rw [fetchBytes_cons hpc]
    rfl
  · rcases pc_of_step h with hkeep | ⟨i, hi⟩ | ⟨n, hn, hadv⟩
    · omega
    · have := (s.reg i).isLt
      omega
    · have hn3 : n ≤ 3 := (show ∀ n ∈ [1, 2, 3], n ≤ 3 by decide) n hn
      exact ⟨by omega, n, hn, hadv⟩

/-! ### Unknown opcodes (40_dispatch.md rule R86) -/

/-- A byte that is none of the eleven of 30_encoding.md rule R65, nor one of the five of rule R68
where ALU_EXT has these, is outside the mapping. -/
theorem lookupOpcode_eq_none {ext : AluExt} {op : Byte} (hbase : op ∉ baseMap.map OpcodeRow.opcode)
    (hext : ext = .absent ∨ op ∉ extMap.map OpcodeRow.opcode) : lookupOpcode ext op = none := by
  cases hl : lookupOpcode ext op with
  | none => rfl
  | some r =>
    obtain ⟨rfl, hr | ⟨hx, hr⟩⟩ := lookupOpcode_row hl
    · exact absurd (List.mem_map_of_mem hr) hbase
    · exact absurd (List.mem_map_of_mem hr) (hext.resolve_left hx)

/-- Settles O33: the byte is outside the mapping, and the step is then the policy's. -/
theorem unknownOpcodeFollowsThePolicy : Obligations.UnknownOpcodeFollowsThePolicy := by
  unfold Obligations.UnknownOpcodeFollowsThePolicy
  intro s hr hpc hbase hext
  rw [step_of_lookup_none hr hpc (lookupOpcode_eq_none hbase hext)]
  exact ⟨unknownOpcode_permissive, unknownOpcode_strict⟩

/-! ### Where a step exists (40_dispatch.md rule R89) -/

theorem exists_next_conclude (s : State) (body : Except Raised (State × DispatchResult)) :
    ∃ t, s.conclude body = .next t := by
  cases body with
  | ok p => exact ⟨_, rfl⟩
  | error e => exact ⟨_, rfl⟩

theorem exists_next_unknownOpcode (s : State) (op : Byte) : ∃ t, s.unknownOpcode op = .next t := by
  rcases unknownOpcode_cases s op with ⟨-, h⟩ | ⟨-, h⟩
  · exact ⟨_, h⟩
  · exact ⟨_, h⟩

theorem exists_next_aluExtension (s : State) (op : Byte)
    (body : Except Raised (State × DispatchResult)) : ∃ t, s.aluExtension op body = .next t := by
  rcases aluExtension_cases s op body with ⟨-, h⟩ | ⟨-, h⟩ | ⟨-, h⟩
  · exact h ▸ exists_next_conclude s body
  · exact ⟨_, h⟩
  · exact h ▸ exists_next_unknownOpcode s op

/-- No instruction stops the machine: its errors are next states too. -/
theorem exists_next_exec (i : Instr) (s : State) : ∃ t, exec i s = .next t := by
  cases i with
  | hlt => exact ⟨_, execHlt_eq s⟩
  | ldi | prn | push | pop | jmp | jeq | jne | add | mul | cmp => exact exists_next_conclude s _
  | sub | div | and | or | xor => exact exists_next_aluExtension s _ _

theorem exists_next_step {s : State} (hr : s.run = .running) : ∃ t, step s = .next t := by
  by_cases hpc : s.pc < memSize
  · cases hl : lookupOpcode s.params.aluExt s.opcodeByte with
    | some r => exact step_of_lookup_some hr hpc hl ▸ exists_next_exec _ s
    | none => exact step_of_lookup_none hr hpc hl ▸ exists_next_unknownOpcode s _
  · exact ⟨_, step_of_pc_ge hr (Nat.not_lt.1 hpc)⟩

/-- Settles O34: `step` itself asks for Running, and in Running every way a step can go answers a next
state. -/
theorem stepExistsExactlyInRunning : Obligations.StepExistsExactlyInRunning := by
  unfold Obligations.StepExistsExactlyInRunning
  exact fun s => ⟨fun ⟨_, h⟩ => running_of_step h, exists_next_step⟩

/-! ### Precise errors (40_dispatch.md rule R87) -/

/-- A step ends Running or Halted, or it is an error entry. -/
theorem run_of_step {s t : State} (h : step s = .next t) :
    t.run = .running ∨ t.run = .halted ∨ ∃ e, ErrorCause s e ∧ t = s.takeError e := by
  have hr : s.run = .running := running_of_step h
  cases stepEffect_of_step h with
  | error e hc ht => exact .inr (.inr ⟨e, hc, ht⟩)
  | halt _ _ ht => exact .inr (.inl (by rw [ht]))
  | unknown _ _ ht | load _ _ _ _ ht | print _ _ _ ht | push _ _ _ _ ht | pop _ _ _ _ ht
  | jump _ _ _ ht | notTaken _ _ ht | compare _ _ _ _ _ ht | alu _ _ _ _ _ _ ht =>
    exact .inl (by rw [ht]; exact hr)

/-- Settles O35: a step that ends Faulted is an error entry, which writes the run state alone. -/
theorem errorsArePrecise : Obligations.ErrorsArePrecise := by
  unfold Obligations.ErrorsArePrecise
  intro s t r h hf
  rcases run_of_step h with hrun | hrun | ⟨e, -, rfl⟩
  · exact nomatch hrun.symm.trans hf
  · exact nomatch hrun.symm.trans hf
  · obtain rfl := RunState.faulted.inj hf
    exact ⟨rfl, rfl⟩

/-! ### The operand window at the top of memory (40_dispatch.md rule R82)

Every instruction with an operand begins by taking it, operand a before operand b, except a branch
that is not taken and an extension instruction outside LS8. -/

/-- What is in the mapping without the extension is in it always. -/
theorem inMapping_of_absent {ext : AluExt} {i : Instr} (h : i.inMapping .absent = true) :
    i.inMapping ext = true := by
  have hbase : (baseMap.find? fun r => r.opcode == i.opcode).isSome = true := h
  cases ext with
  | absent => exact h
  | unsupported | ls8 => simp [Instr.inMapping, lookupOpcode, opcodeMap, List.find?_append, hbase]

/-- What follows the check of two registers follows the bytes and registers one by one. -/
theorem regPair_bind (s : State) (a b : WindowByte)
    (k : Fin nRegs × Fin nRegs → Except Raised (State × DispatchResult)) :
    s.regPair a b >>= k = s.regOperand 1 a >>= fun ia => s.opnd 2 b >>= fun v =>
      checkRegIndex v >>= fun ib => k (ia, ib) := by
  simp [State.regPair, State.regOperand, bind_assoc]

/-- The step references operand byte b once the checks of operand a are passed: LDI and the
two-register instructions. -/
def ReferencesOperandB (s : State) : Prop :=
  s.opcodeByte ∈ [opLDI, opADD, opMUL, opCMP] ∨
    s.opcodeByte ∈ [opSUB, opDIV, opAND, opOR, opXOR] ∧ s.params.aluExt = .ls8

/-- The step references operand byte a. -/
def ReferencesOperandA (s : State) : Prop :=
  s.opcodeByte ∈ [opPRN, opPUSH, opPOP] ∨ JumpTaken s ∨ ReferencesOperandB s

section
variable {s : State} (hr : s.run = .running)

include hr

/-- LDI and the two-register instructions begin with register a and then take operand byte b. -/
theorem step_of_referencesOperandB (hpc : s.pc < memSize) (h : ReferencesOperandB s) :
    ∃ k : Fin nRegs → Byte → Except Raised (State × DispatchResult),
      step s = s.conclude (s.regOperand 1 (s.shownByte (s.pc + 1)) >>= fun ia =>
        s.opnd 2 (s.shownByte (s.pc + 2)) >>= k ia) := by
  have hexec (i : Instr) (hm : i.inMapping s.params.aluExt = true) (hop : s.opcodeByte = i.opcode)
      (ho : i.operands = [s.shownByte (s.pc + 1), s.shownByte (s.pc + 2)]) : step s = exec i s :=
    step_of_window hr hpc hm hop (by rw [ho]; rfl)
  have hpair {k} := congrArg s.conclude
    (regPair_bind s (s.shownByte (s.pc + 1)) (s.shownByte (s.pc + 2)) k)
  simp only [ReferencesOperandB, List.mem_cons, List.not_mem_nil, or_false] at h
  rcases h with (hop | hop | hop | hop) | ⟨hop | hop | hop | hop | hop, hx⟩
  · exact ⟨_, hexec (.ldi _ _) (inMapping_of_absent rfl) hop rfl⟩
  · exact ⟨_, (hexec (.add _ _) (inMapping_of_absent rfl) hop rfl).trans hpair⟩
  · exact ⟨_, (hexec (.mul _ _) (inMapping_of_absent rfl) hop rfl).trans hpair⟩
  · exact ⟨_, (hexec (.cmp _ _) (inMapping_of_absent rfl) hop rfl).trans hpair⟩
  · exact ⟨_, (hexec (.sub _ _) (hx ▸ rfl) hop rfl).trans ((aluExtension_ls8 hx).trans hpair)⟩
  · exact ⟨_, (hexec (.div _ _) (hx ▸ rfl) hop rfl).trans ((aluExtension_ls8 hx).trans hpair)⟩
  · exact ⟨_, (hexec (.and _ _) (hx ▸ rfl) hop rfl).trans ((aluExtension_ls8 hx).trans hpair)⟩
  · exact ⟨_, (hexec (.or _ _) (hx ▸ rfl) hop rfl).trans ((aluExtension_ls8 hx).trans hpair)⟩
  · exact ⟨_, (hexec (.xor _ _) (hx ▸ rfl) hop rfl).trans ((aluExtension_ls8 hx).trans hpair)⟩

/-- A jump that is taken jumps to operand a. -/
theorem step_of_jumpTaken (hpc : s.pc < memSize) (hj : JumpTaken s) :
    step s = s.conclude (s.jumpTo (s.shownByte (s.pc + 1))) := by
  cases hj with
  | jmp hop => exact step_of_window (i := .jmp _) hr hpc (inMapping_of_absent rfl) hop rfl
  | jeq hop hf =>
    exact (step_of_window (i := .jeq _) hr hpc (inMapping_of_absent rfl) hop rfl).trans
      (congrArg s.conclude (if_pos hf))
  | jne hop hf =>
    exact (step_of_window (i := .jne _) hr hpc (inMapping_of_absent rfl) hop rfl).trans
      (congrArg s.conclude (if_neg (Bool.eq_false_iff.1 hf)))

/-- A branch that is not taken references no byte of the window (44_control.md rules R141 and
R142). -/
theorem step_of_branchNotTaken (hpc : s.pc < memSize) (hbr : BranchNotTaken s) :
    step s = .next { s with pc := s.pc + 2 } := by
  cases hbr with
  | jeq hop hf =>
    exact (step_of_window (i := .jeq _) hr hpc (inMapping_of_absent rfl) hop rfl).trans
      (congrArg s.conclude (if_neg (Bool.eq_false_iff.1 hf)))
  | jne hop hf =>
    exact (step_of_window (i := .jne _) hr hpc (inMapping_of_absent rfl) hop rfl).trans
      (congrArg s.conclude (if_pos hf))

/-- HLT references no byte of the window (45_halt.md rule R150). -/
theorem step_of_hlt (hpc : s.pc < memSize) (hop : s.opcodeByte = opHLT) :
    step s = .next { s with run := .halted } :=
  step_of_window (i := .hlt) hr hpc (inMapping_of_absent rfl) hop rfl

/-- An instruction that references operand a begins with register a. -/
theorem step_of_referencesOperandA (hpc : s.pc < memSize) (h : ReferencesOperandA s) :
    ∃ k : Fin nRegs → Except Raised (State × DispatchResult),
      step s = s.conclude (s.regOperand 1 (s.shownByte (s.pc + 1)) >>= k) := by
  rcases h with h | hj | h
  · simp only [List.mem_cons, List.not_mem_nil, or_false] at h
    rcases h with hop | hop | hop
    · exact ⟨_, step_of_window (i := .prn _) hr hpc (inMapping_of_absent rfl) hop rfl⟩
    · exact ⟨_, step_of_window (i := .push _) hr hpc (inMapping_of_absent rfl) hop rfl⟩
    · exact ⟨_, step_of_window (i := .pop _) hr hpc (inMapping_of_absent rfl) hop rfl⟩
  · exact ⟨_, step_of_jumpTaken hr hpc hj⟩
  · obtain ⟨k, hk⟩ := step_of_referencesOperandB hr hpc h
    exact ⟨_, hk⟩

/-- An instruction at 0xFF has no operand byte a. -/
theorem step_raises_at_0xFF (hpc : s.pc = 0xFF) (h : ReferencesOperandA s) :
    Raises s (step s) .memIndex 0x100 := by
  have ha : s.shownByte (s.pc + 1) = .absent := shownByte_of_ge (by rw [hpc])
  obtain ⟨k, hk⟩ := step_of_referencesOperandA hr (by rw [hpc]; decide) h
  rw [hk, ha, regOperand_absent, hpc]
  exact raises_conclude_error s _

/-- An instruction at 0xFE has no operand byte b, which is looked at after register a. -/
theorem step_raises_at_0xFE (hpc : s.pc = 0xFE) (h : ReferencesOperandB s) :
    ((Memory.read s.mem 0xFF).toNat < 8 → Raises s (step s) .memIndex 0x100) ∧
      (8 ≤ (Memory.read s.mem 0xFF).toNat →
        Raises s (step s) .regIndex (Memory.read s.mem 0xFF).toNat) := by
  have ha : s.shownByte (s.pc + 1) = .byte (Memory.read s.mem 0xFF) := by
    rw [hpc]
    exact shownByte_of_lt (by decide)
  have hb : s.shownByte (s.pc + 2) = .absent := shownByte_of_ge (by rw [hpc])
  obtain ⟨k, hk⟩ := step_of_referencesOperandB hr (by rw [hpc]; decide) h
  rw [hk, ha, hb, opnd_absent, hpc]
  refine ⟨fun hv => ?_, fun hv => ?_⟩
  · have hreg : s.regOperand 1 (.byte (Memory.read s.mem 0xFF)) = .ok ⟨_, hv⟩ :=
      checkRegIndex_of_lt hv
    rw [hreg]
    exact raises_conclude_error s _
  · rw [regOperand_of_ge hv]
    exact raises_conclude_error s _

end

/-- Settles O51: the window of the first clause is the one a fetch reads; the clauses at 0xFF and 0xFE
are the errors of a missing operand a and b; HLT and a branch that is not taken look at neither. -/
theorem windowBytesBeyondMemoryAreAbsent : Obligations.WindowBytesBeyondMemoryAreAbsent := by
  unfold Obligations.WindowBytesBeyondMemoryAreAbsent
  intro s hr hpc
  refine ⟨fun i hm hop h => step_of_window hr hpc hm hop h,
    fun h255 h => step_raises_at_0xFF hr h255 ?_,
    fun h254 h => step_raises_at_0xFE hr h254 h, step_of_hlt hr hpc,
    fun h => step_of_branchNotTaken hr hpc ?_⟩
  · rcases h with hop | ⟨hop, hf⟩ | ⟨hop, hf⟩ | hext
    · rcases (List.mem_append (s := [opPRN, opPUSH, opPOP])).1 hop with hop | hop
      · exact .inl hop
      · exact .inr ((List.mem_cons.1 hop).imp JumpTaken.jmp .inl)
    · exact .inr (.inl (.jeq hop hf))
    · exact .inr (.inl (.jne hop hf))
    · exact .inr (.inr (.inr hext))
  · rcases h with ⟨hop, hf⟩ | ⟨hop, hf⟩
    · exact .jeq hop hf
    · exact .jne hop hf

end Sys2Proof.Machine
end

section
/-! PROOF. The family of 41_alu.md: ADD, MUL and CMP (rules R101 to R103), the five instructions of the
ALU extension under LS8 (rules R104 to R108) and under Unsupported (rule R109). -/

namespace Sys2Proof.Machine

/-! ### The extension bytes under ALU_EXT = Unsupported (41_alu.md rule R109) -/

/-- Under Unsupported the step of an instruction that asks ALU_EXT first is the error. -/
theorem raises_unsupportedAluOp_of_aluExtension {s : State} {i : Instr}
    {body : Except Raised (State × DispatchResult)} (hr : s.run = .running) (hpc : s.pc < memSize)
    (hx : s.params.aluExt = .unsupported) (hm : i.inMapping .unsupported = true)
    (hop : s.opcodeByte = i.opcode) (ho : i.operands = [s.shownByte (s.pc + 1), s.shownByte (s.pc + 2)])
    (hexec : exec i s = s.aluExtension i.opcode body) :
    Raises s (step s) .unsupportedAluOp s.opcodeByte.toNat := by
  have hstep : step s = exec i s := step_of_window hr hpc (hx ▸ hm) hop (by rw [ho]; rfl)
  rw [hstep, hexec, aluExtension_unsupported hx, hop]
  rfl

/-- The cause of UNSUPPORTED_ALU_OP is ALU_EXT = Unsupported. -/
theorem aluExt_of_errorCause {s : State} {e : Raised} (hc : ErrorCause s e)
    (he : e.code = .unsupportedAluOp) : s.params.aluExt = .unsupported := by
  cases hc with
  | unsupportedAlu hx _ => exact hx
  | fetch | operand | register | overflow | underflow | unknownOpcode | divideByZero => cases he

/-- Settles O18: each of the five instructions asks ALU_EXT before its operands, and a step that ends
Faulted has the cause of its error. -/
theorem unsupportedAluOperationRaises : Obligations.UnsupportedAluOperationRaises := by
  unfold Obligations.UnsupportedAluOperationRaises
  refine ⟨fun s hr hpc hx hop => ?_, fun s t r hx h hf hcode => ?_⟩
  · simp only [List.mem_cons, List.not_mem_nil, or_false] at hop
    rcases hop with hop | hop | hop | hop | hop
    · exact raises_unsupportedAluOp_of_aluExtension (i := .sub _ _) hr hpc hx rfl hop rfl rfl
    · exact raises_unsupportedAluOp_of_aluExtension (i := .div _ _) hr hpc hx rfl hop rfl rfl
    · exact raises_unsupportedAluOp_of_aluExtension (i := .and _ _) hr hpc hx rfl hop rfl rfl
    · exact raises_unsupportedAluOp_of_aluExtension (i := .or _ _) hr hpc hx rfl hop rfl rfl
    · exact raises_unsupportedAluOp_of_aluExtension (i := .xor _ _) hr hpc hx rfl hop rfl rfl
  · rcases run_of_step h with hrun | hrun | ⟨e, hc, rfl⟩
    · exact nomatch hrun.symm.trans hf
    · exact nomatch hrun.symm.trans hf
    · obtain rfl := RunState.faulted.inj hf
      exact hx (aluExt_of_errorCause hc hcode)

/-! ### What the two-register instructions share (41_alu.md rule R100) -/

/-- The frame of an instruction of three bytes that writes register i: pc is 3 further, and nothing
but that register and pc is changed. -/
def WritesOnlyRegister (s : State) (i : Fin nRegs) (t : State) : Prop :=
  t.pc = s.pc + 3 ∧ KeepsRegistersExcept s [i] t ∧ t.fl = s.fl ∧ KeepsMemory s t ∧
    KeepsRunOutputParams s t

theorem writesOnlyRegister_setReg (s : State) (i : Fin nRegs) (v : Byte) :
    WritesOnlyRegister s i ((s.setReg i v).applyResult (.advance 3)) := by
  have hregs : KeepsRegistersExcept s [i] ((s.setReg i v).applyResult (.advance 3)) := fun j hj => by
    rw [applyResult_reg, reg_setReg_ne (Ne.symm (List.ne_of_not_mem_cons hj))]
  exact ⟨rfl, hregs, rfl, fun _ => rfl, rfl, rfl, rfl⟩

/-- A body that begins with two registers that are named goes on with them. -/
theorem conclude_regPair_regOpnd (s : State) (i j : Fin nRegs)
    (k : Fin nRegs × Fin nRegs → Except Raised (State × DispatchResult)) :
    s.conclude (s.regPair (regOpnd i) (regOpnd j) >>= k) = s.conclude (k (i, j)) := by
  rw [regPair_regOpnd]
  rfl

/-- What an instruction of the shape `x[ia] <- f x[ia] x[ib]` does, for any property P of f's result:
the result, the frame, and the errors of its operands. -/
theorem aluBinary_spec {s : State} {f : Byte → Byte → Byte} {instr : WindowByte → WindowByte → Instr}
    {P : Byte → Byte → Byte → Prop}
    (hexec : ∀ a b, exec (instr a b) s = s.conclude (s.aluBinary f a b))
    (hf : ∀ va vb, P va vb (f va vb)) :
    (∀ i j, ∃ t, exec (instr (regOpnd i) (regOpnd j)) s = .next t ∧
      P (s.reg i) (s.reg j) (t.reg i) ∧ WritesOnlyRegister s i t) ∧
    RaisesOnBadOperandPair s fun a b => exec (instr a b) s := by
  refine ⟨fun i j => ?_, raisesOnBadOperandPair_of_regPair hexec⟩
  have hnext : exec (instr (regOpnd i) (regOpnd j)) s =
      .next ((s.setReg i (f (s.reg i) (s.reg j))).applyResult (.advance 3)) := by
    rw [hexec, aluBinary_regOpnd, conclude_ok]
  refine ⟨_, hnext, ?_, writesOnlyRegister_setReg s i _⟩
  rw [applyResult_reg, reg_setReg_self]
  exact hf _ _

/-- Three bytes decode to the two-operand instruction of the mapping they stand for, whatever
follows. -/
theorem decode_of_two_operands {ext : AluExt} {i : Instr} {a b : Byte} (hm : i.inMapping ext = true)
    (ho : i.operands = [.byte a, .byte b]) (rest : List Byte) :
    decode ext (i.opcode :: a :: b :: rest) = .ok i := by
  obtain ⟨r, hrow, hbuild⟩ :=
    lookupOpcode_of_inMapping (a := .byte a) (b := .byte b) hm (by rw [ho]; rfl)
  rw [decode_cons_some _ hrow, List.tail_cons, headByte_cons, headByte_cons, hbuild]

/-! ### ADD and MUL (41_alu.md rules R101 and R102) -/

/-- Settles O10: ADD has the shared shape, with the sum modulo 256. -/
theorem addWritesSumModulo256 : Obligations.AddWritesSumModulo256 := by
  unfold Obligations.AddWritesSumModulo256
  intro s
  have hexec (a b : WindowByte) : exec (.add a b) s = s.conclude (s.aluBinary aluAdd a b) := rfl
  obtain ⟨hnext, herror⟩ := aluBinary_spec hexec
    (P := fun va vb v => v.toNat = (va.toNat + vb.toNat) % 256) aluAdd_toNat
  exact ⟨hnext, herror, fun ext a b rest =>
    decode_of_two_operands (i := .add _ _) (inMapping_of_absent rfl) rfl rest⟩

/-- Settles O11: MUL has the shared shape, with the product modulo 256. -/
theorem mulWritesProductModulo256 : Obligations.MulWritesProductModulo256 := by
  unfold Obligations.MulWritesProductModulo256
  intro s
  have hexec (a b : WindowByte) : exec (.mul a b) s = s.conclude (s.aluBinary aluMul a b) := rfl
  obtain ⟨hnext, herror⟩ := aluBinary_spec hexec
    (P := fun va vb v => v.toNat = (va.toNat * vb.toNat) % 256) aluMul_toNat
  exact ⟨hnext, herror, fun ext a b rest =>
    decode_of_two_operands (i := .mul _ _) (inMapping_of_absent rfl) rfl rest⟩

/-! ### CMP (41_alu.md rule R103) -/

section
variable {va vb : Byte}

theorem compareFlags_of_lt (h : va.toNat < vb.toNat) : compareFlags va vb = 0b100 := if_pos h

theorem compareFlags_of_gt (h : va.toNat > vb.toNat) : compareFlags va vb = 0b010 :=
  (if_neg (Nat.lt_asymm h)).trans (if_pos h)

theorem compareFlags_of_eq (h : va.toNat = vb.toNat) : compareFlags va vb = 0b001 :=
  (if_neg h.not_lt).trans (if_neg h.not_gt)

end

/-- Settles O12: FL is the comparison's fresh value, and the operands are checked as ADD's are. -/
theorem cmpReplacesFlWithOneBit : Obligations.CmpReplacesFlWithOneBit := by
  unfold Obligations.CmpReplacesFlWithOneBit
  intro s
  refine ⟨fun i j => ?_, raisesOnBadOperandPair_of_regPair fun _ _ => rfl, fun ext a b rest =>
    decode_of_two_operands (i := .cmp _ _) (inMapping_of_absent rfl) rfl rest⟩
  exact ⟨_, conclude_regPair_regOpnd s i j _, compareFlags_of_lt, compareFlags_of_gt,
    compareFlags_of_eq, rfl, fun _ _ => rfl, fun _ => rfl, rfl, rfl, rfl⟩

/-! ### The ALU extension under LS8 (41_alu.md rules R104 to R108) -/

/-- Settles O13: SUB under LS8 has the shared shape, with the difference modulo 256. -/
theorem subWritesDifferenceModulo256 : Obligations.SubWritesDifferenceModulo256 := by
  unfold Obligations.SubWritesDifferenceModulo256
  intro s hx
  have hexec (a b : WindowByte) : exec (.sub a b) s = s.conclude (s.aluBinary aluSub a b) :=
    aluExtension_ls8 hx
  obtain ⟨hnext, herror⟩ := aluBinary_spec hexec
    (P := fun va vb v => (v.toNat : Int) = ((va.toNat : Int) - (vb.toNat : Int)) % 256)
    aluSub_toNat
  exact ⟨hnext, herror, fun a b rest =>
    decode_of_two_operands (i := .sub _ _) (inMapping_ls8 _) rfl rest⟩

/-- DIV of two registers under LS8: the operand checks are passed, and the divisor is looked at. -/
theorem execDiv_regOpnd {s : State} (hx : s.params.aluExt = .ls8) (i j : Fin nRegs) :
    execDiv (regOpnd i) (regOpnd j) s = s.conclude
      (if s.reg j = 0 then .error { code := .divideByZero, info := j.val }
      else .ok (s.setReg i (aluDiv (s.reg i) (s.reg j)), .advance 3)) :=
  (aluExtension_ls8 hx).trans (conclude_regPair_regOpnd s i j _)

/-- Settles O14: where the divisor is not 0 the quotient is written as the shared shape writes its
result; the operands are checked as ADD's are. -/
theorem divWritesQuotientOrRaises : Obligations.DivWritesQuotientOrRaises := by
  unfold Obligations.DivWritesQuotientOrRaises
  intro s hx
  refine ⟨fun i j hne => ?_, fun i j hz => ?_,
    raisesOnBadOperandPair_of_regPair fun _ _ => aluExtension_ls8 hx, fun a b rest =>
    decode_of_two_operands (i := .div _ _) (inMapping_ls8 _) rfl rest⟩
  · have hj : s.reg j ≠ 0 := fun h => hne (by rw [h]; rfl)
    have hnext := (execDiv_regOpnd hx i j).trans (congrArg s.conclude (if_neg hj))
    refine ⟨_, hnext, ?_, writesOnlyRegister_setReg s i _⟩
    rw [applyResult_reg, reg_setReg_self, aluDiv_toNat]
  · have hj : s.reg j = 0 := BitVec.eq_of_toNat_eq hz
    exact (execDiv_regOpnd hx i j).trans (congrArg s.conclude (if_pos hj))

/-- Settles O15: AND under LS8 has the shared shape, with the bits' AND. -/
theorem andWritesBitwiseAnd : Obligations.AndWritesBitwiseAnd := by
  unfold Obligations.AndWritesBitwiseAnd
  intro s hx
  have hexec (a b : WindowByte) : exec (.and a b) s =
      s.conclude (s.aluBinary (fun va vb => va &&& vb) a b) := aluExtension_ls8 hx
  obtain ⟨hnext, herror⟩ := aluBinary_spec hexec
    (P := fun va vb v => ∀ k, v.getLsbD k = (va.getLsbD k && vb.getLsbD k))
    fun _ _ _ => BitVec.getLsbD_and
  exact ⟨hnext, herror, fun a b rest =>
    decode_of_two_operands (i := .and _ _) (inMapping_ls8 _) rfl rest⟩

/-- Settles O16: OR under LS8 has the shared shape, with the bits' OR. -/
theorem orWritesBitwiseOr : Obligations.OrWritesBitwiseOr := by
  unfold Obligations.OrWritesBitwiseOr
  intro s hx
  have hexec (a b : WindowByte) : exec (.or a b) s =
      s.conclude (s.aluBinary (fun va vb => va ||| vb) a b) := aluExtension_ls8 hx
  obtain ⟨hnext, herror⟩ := aluBinary_spec hexec
    (P := fun va vb v => ∀ k, v.getLsbD k = (va.getLsbD k || vb.getLsbD k))
    fun _ _ _ => BitVec.getLsbD_or
  exact ⟨hnext, herror, fun a b rest =>
    decode_of_two_operands (i := .or _ _) (inMapping_ls8 _) rfl rest⟩

/-- Settles O17: XOR under LS8 has the shared shape, with the bits' exclusive OR. -/
theorem xorWritesBitwiseXor : Obligations.XorWritesBitwiseXor := by
  unfold Obligations.XorWritesBitwiseXor
  intro s hx
  have hexec (a b : WindowByte) : exec (.xor a b) s =
      s.conclude (s.aluBinary (fun va vb => va ^^^ vb) a b) := aluExtension_ls8 hx
  obtain ⟨hnext, herror⟩ := aluBinary_spec hexec
    (P := fun va vb v => ∀ k, v.getLsbD k = (va.getLsbD k ^^ vb.getLsbD k))
    fun _ _ _ => BitVec.getLsbD_xor
  exact ⟨hnext, herror, fun a b rest =>
    decode_of_two_operands (i := .xor _ _) (inMapping_ls8 _) rfl rest⟩

end Sys2Proof.Machine
end

section
/-! PROOF. The family of 42_move_output.md: LDI (rule R120) and PRN (rules R121 and R122). -/

namespace Sys2Proof.Machine

/-! ### What the instructions that begin with one register share -/

/-- A body that begins with a register that is named goes on with it. -/
theorem conclude_regOperand_regOpnd (s : State) (i : Fin nRegs)
    (k : Fin nRegs → Except Raised (State × DispatchResult)) :
    s.conclude (s.regOperand 1 (regOpnd i) >>= k) = s.conclude (k i) := by
  rw [regOperand_regOpnd]
  rfl

/-- Two bytes decode to the one-operand instruction of the mapping they stand for, whatever
follows. -/
theorem decode_of_one_operand {ext : AluExt} {i : Instr} {a : Byte} (hm : i.inMapping ext = true)
    (ho : i.operands = [.byte a]) (rest : List Byte) :
    decode ext (i.opcode :: a :: rest) = .ok i := by
  obtain ⟨r, hrow, hbuild⟩ :=
    lookupOpcode_of_inMapping (a := .byte a) (b := headByte rest) hm (by rw [ho]; rfl)
  rw [decode_cons_some _ hrow, List.tail_cons, headByte_cons, hbuild]

/-! ### LDI (42_move_output.md rule R120) -/

/-- LDI to a named register: its check is passed, and the immediate is referenced. -/
theorem execLdi_regOpnd (s : State) (i : Fin nRegs) (imm : WindowByte) :
    execLdi (regOpnd i) imm s =
      s.conclude (s.opnd 2 imm >>= fun v => pure (s.setReg i v, .advance 3)) :=
  conclude_regOperand_regOpnd s i _

/-- Settles O19: register a is checked before the immediate, and an immediate that is there is
written as the frame `WritesOnlyRegister` says. -/
theorem ldiWritesTheImmediate : Obligations.LdiWritesTheImmediate := by
  unfold Obligations.LdiWritesTheImmediate
  intro s
  refine ⟨fun i imm => ?_, fun _ => raisesOnBadOperandA_of_regOperand fun _ => rfl, fun i => ?_,
    fun ext a imm rest => decode_of_two_operands (i := .ldi _ _) (inMapping_of_absent rfl) rfl rest⟩
  · have hnext : exec (.ldi (regOpnd i) (.byte imm)) s =
        .next ((s.setReg i imm).applyResult (.advance 3)) := execLdi_regOpnd s i (.byte imm)
    refine ⟨_, hnext, ?_, writesOnlyRegister_setReg s i imm⟩
    rw [applyResult_reg, reg_setReg_self]
  · exact execLdi_regOpnd s i .absent

/-! ### PRN (42_move_output.md rules R121 and R122) -/

/-- Settles O20: once its register is checked PRN emits that register's value, and its body raises
before it emits. -/
theorem prnAppendsTheRegister : Obligations.PrnAppendsTheRegister := by
  unfold Obligations.PrnAppendsTheRegister
  intro s
  refine ⟨fun i => ?_, raisesOnBadOperandA_of_regOperand fun _ => rfl, fun ext a rest =>
    decode_of_one_operand (i := .prn _) (inMapping_of_absent rfl) rfl rest⟩
  have hnext : exec (.prn (regOpnd i)) s =
      .next ((s.emit (s.reg i)).applyResult (.advance 2)) := conclude_regOperand_regOpnd s i _
  exact ⟨_, hnext, rfl, rfl, fun _ _ => rfl, rfl, fun _ => rfl, rfl, rfl⟩

end Sys2Proof.Machine
end

section
/-! PROOF. The family of 43_stack.md: PUSH (rule R131) and POP (rule R132), with the bounds of rule
R133. -/

namespace Sys2Proof.Machine

/-! ### PUSH (43_stack.md rule R131) -/

/-- The state PUSH of register i leaves where SP is not 0: the value stored is read after SP has
moved. -/
def State.pushed (s : State) (i : Fin nRegs) : State :=
  let t := s.setReg spIndex (s.sp - 1)
  { t with mem := Memory.write s.mem (s.sp - 1).toNat (t.reg i), pc := s.pc + 2 }

section
variable {s : State} {i : Fin nRegs}

theorem execPush_of_sp_ne_zero (h : s.sp ≠ 0) : execPush (regOpnd i) s = .next (s.pushed i) := by
  let t := s.setReg spIndex (s.sp - 1)
  have hsp : t.sp = s.sp - 1 := reg_setReg_self s spIndex (s.sp - 1)
  have hwrite := memWrite_of_lt (s := t) (v := t.reg i) (s.sp - 1).isLt
  rw [execPush, conclude_regOperand_regOpnd, if_neg h]
  show s.conclude (t.memWrite t.sp.toNat (t.reg i) >>= fun u => pure (u, .advance 2)) = _
  rw [hsp, hwrite]
  rfl

theorem execPush_of_sp_eq_zero (h : s.sp = 0) :
    execPush (regOpnd i) s = .next (s.takeError { code := .stackOverflow, info := 0 }) := by
  rw [execPush, conclude_regOperand_regOpnd, if_pos h, h]
  rfl

theorem pushed_sp : (s.pushed i).reg 7 = s.reg 7 - 1 := reg_setReg_self s 7 _

theorem pushed_keepsRegisters : KeepsRegistersExcept s [7] (s.pushed i) := fun _ hj =>
  reg_setReg_ne (Ne.symm (List.ne_of_not_mem_cons hj))

theorem read_pushed_self (hm : Memory.wf s.mem = true) :
    Memory.read (s.pushed i).mem (s.reg 7 - 1).toNat = if i = 7 then s.reg 7 - 1 else s.reg i := by
  have hread : Memory.read (s.pushed i).mem (s.reg 7 - 1).toNat =
      (s.setReg 7 (s.reg 7 - 1)).reg i := Memory.read_write_self hm
  simp only [hread, reg_setReg, eq_comm]

theorem read_pushed_ne {addr : Nat} (h : addr ≠ (s.reg 7 - 1).toNat) :
    Memory.read (s.pushed i).mem addr = Memory.read s.mem addr :=
  Memory.read_write_ne h

end

/-- Settles O21: with SP not 0 the next state is `pushed`, whose changed cell `SP - 1` does not wrap;
with SP = 0 the bound is checked after the operand and before any write. -/
theorem pushStoresBelowSp : Obligations.PushStoresBelowSp := by
  unfold Obligations.PushStoresBelowSp
  intro s hm
  refine ⟨fun i hne => ?_, fun _ hz => execPush_of_sp_eq_zero (BitVec.eq_of_toNat_eq hz),
    raisesOnBadOperandA_of_regOperand fun _ => rfl, fun ext a rest =>
    decode_of_one_operand (i := .push _) (inMapping_of_absent rfl) rfl rest⟩
  have hsp : s.sp ≠ 0 := fun h => hne (congrArg BitVec.toNat h)
  have haddr : (s.reg 7 - 1).toNat = (s.reg 7).toNat - 1 := by bv_omega
  rw [← haddr]
  exact ⟨s.pushed i, execPush_of_sp_ne_zero hsp, congrArg BitVec.toNat pushed_sp,
    read_pushed_self hm, fun _ => read_pushed_ne, rfl, pushed_keepsRegisters, rfl, rfl, rfl, rfl⟩

/-! ### POP (43_stack.md rule R132) -/

/-- The state POP to register i leaves where SP is below `stackTop`: SP moves after the register is
written. -/
def State.popped (s : State) (i : Fin nRegs) : State :=
  let t := s.setReg i (Memory.read s.mem s.sp.toNat)
  { t.setReg spIndex (t.sp + 1) with pc := s.pc + 2 }

section
variable {s : State} {i : Fin nRegs}

theorem execPop_of_sp_lt (h : s.sp.toNat < stackTop.toNat) :
    execPop (regOpnd i) s = .next (s.popped i) := by
  rw [execPop, conclude_regOperand_regOpnd, if_neg (Nat.not_le.2 h), memRead_of_lt s.sp.isLt]
  rfl

theorem execPop_of_sp_ge (h : stackTop.toNat ≤ s.sp.toNat) :
    execPop (regOpnd i) s =
      .next (s.takeError { code := .stackUnderflow, info := s.sp.toNat }) := by
  rw [execPop, conclude_regOperand_regOpnd, if_pos h]
  rfl

theorem popped_sp :
    (s.popped i).reg 7 = (s.setReg i (Memory.read s.mem (s.reg 7).toNat)).reg 7 + 1 :=
  reg_setReg_self _ 7 _

theorem popped_sp_of_ne (hi : i ≠ 7) : (s.popped i).reg 7 = s.reg 7 + 1 := by
  rw [popped_sp, reg_setReg_ne hi]

theorem popped_seven_sp : (s.popped 7).reg 7 = Memory.read s.mem (s.reg 7).toNat + 1 := by
  rw [popped_sp, reg_setReg_self]

theorem popped_reg_of_ne {j : Fin nRegs} (hj : j ≠ 7) :
    (s.popped i).reg j = (s.setReg i (Memory.read s.mem (s.reg 7).toNat)).reg j :=
  reg_setReg_ne (Ne.symm hj)

theorem popped_keepsRegisters : KeepsRegistersExcept s [i, 7] (s.popped i) := fun j hj => by
  simp only [List.mem_cons, List.not_mem_nil, or_false, not_or] at hj
  obtain ⟨hji, hj7⟩ := hj
  rw [popped_reg_of_ne hj7, reg_setReg_ne (Ne.symm hji)]

end

/-- Settles O22: with SP below `stackTop` the next state is `popped`, where the sum `SP + 1` does not
wrap but the popped value's may; at or above it the bound is checked before any write. -/
theorem popLoadsFromSp : Obligations.PopLoadsFromSp := by
  unfold Obligations.PopLoadsFromSp
  intro s
  refine ⟨fun i hlt => ?_, fun _ hge => execPop_of_sp_ge hge,
    raisesOnBadOperandA_of_regOperand fun _ => rfl, fun ext a rest =>
    decode_of_one_operand (i := .pop _) (inMapping_of_absent rfl) rfl rest⟩
  refine ⟨s.popped i, execPop_of_sp_lt hlt, fun hi => ⟨?_, ?_⟩, fun hi => ?_, rfl,
    popped_keepsRegisters, rfl, fun _ => rfl, rfl, rfl, rfl⟩
  · rw [popped_reg_of_ne hi, reg_setReg_self]
  · rw [popped_sp_of_ne hi]
    bv_omega
  · subst hi
    rw [popped_seven_sp]
    exact BitVec.toNat_add _ _

end Sys2Proof.Machine
end

section
/-! PROOF. The family of 44_control.md: JMP (rule R140), JEQ (rule R141) and JNE (rule R142). -/

namespace Sys2Proof.Machine

/-! ### What the three jumps share -/

/-- The new pc and the frame of a jump, taken or not: nothing changes but pc, which becomes `p`. -/
def ChangesOnlyPc (s : State) (p : Nat) (t : State) : Prop :=
  t.pc = p ∧ KeepsRegistersExcept s [] t ∧ t.fl = s.fl ∧ KeepsMemory s t ∧
    KeepsRunOutputParams s t

theorem changesOnlyPc_with_pc (s : State) (p : Nat) : ChangesOnlyPc s p { s with pc := p } :=
  ⟨rfl, fun _ _ => rfl, rfl, fun _ => rfl, rfl, rfl, rfl⟩

/-- What JMP does with its operand (44_control.md rule R140), for the branches that do the same when
they are taken: the absolute target of a named register, and the errors of a bad operand byte. -/
def JumpsToOperand (s : State) (run : WindowByte → Host.Outcome State Fault Refusal) : Prop :=
  (∀ i : Fin nRegs, ∃ t, run (regOpnd i) = .next t ∧ ChangesOnlyPc s (s.reg i).toNat t) ∧
    RaisesOnBadOperandA s run

theorem jumpsToOperand_of_jumpTo {s : State}
    {run : WindowByte → Host.Outcome State Fault Refusal}
    (h : ∀ a, run a = s.conclude (s.jumpTo a)) : JumpsToOperand s run := by
  refine ⟨fun i => ⟨{ s with pc := (s.reg i).toNat }, ?_, changesOnlyPc_with_pc s _⟩,
    raisesOnBadOperandA_of_regOperand h⟩
  rw [h, jumpTo_regOpnd]
  rfl

/-! ### JMP (44_control.md rule R140) -/

/-- Settles O25: JMP is the shared jump itself. -/
theorem jmpSetsPcToTheRegister : Obligations.JmpSetsPcToTheRegister := by
  unfold Obligations.JmpSetsPcToTheRegister
  intro s
  obtain ⟨hjump, hraises⟩ : JumpsToOperand s fun a => exec (.jmp a) s :=
    jumpsToOperand_of_jumpTo fun _ => rfl
  exact ⟨hjump, hraises, fun ext a rest =>
    decode_of_one_operand (i := .jmp _) (inMapping_of_absent rfl) rfl rest⟩

/-! ### JEQ and JNE (44_control.md rules R141 and R142) -/

section
variable {s : State} (a : WindowByte)

theorem execJeq_of_flagE (h : s.flagE = true) : execJeq a s = s.conclude (s.jumpTo a) :=
  congrArg s.conclude (if_pos h)

theorem execJeq_of_not_flagE (h : s.flagE = false) :
    execJeq a s = .next { s with pc := s.pc + 2 } :=
  congrArg s.conclude (if_neg (Bool.eq_false_iff.1 h))

theorem execJne_of_flagE (h : s.flagE = true) : execJne a s = .next { s with pc := s.pc + 2 } :=
  congrArg s.conclude (if_pos h)

theorem execJne_of_not_flagE (h : s.flagE = false) : execJne a s = s.conclude (s.jumpTo a) :=
  congrArg s.conclude (if_neg (Bool.eq_false_iff.1 h))

end

/-- Settles O26, by FL.E: set, JEQ is the shared jump; clear, it never looks at its operand byte. -/
theorem jeqJumpsIffEqual : Obligations.JeqJumpsIffEqual := by
  unfold Obligations.JeqJumpsIffEqual
  intro s
  refine ⟨fun hE => ?_, fun hE a => ?_, fun ext a rest =>
    decode_of_one_operand (i := .jeq _) (inMapping_of_absent rfl) rfl rest⟩
  · exact jumpsToOperand_of_jumpTo fun a => execJeq_of_flagE a hE
  · exact ⟨_, execJeq_of_not_flagE a hE, changesOnlyPc_with_pc s _⟩

/-- Settles O27, by FL.E: clear, JNE is the shared jump; set, it never looks at its operand byte. -/
theorem jneJumpsIffNotEqual : Obligations.JneJumpsIffNotEqual := by
  unfold Obligations.JneJumpsIffNotEqual
  intro s
  refine ⟨fun hE => ?_, fun hE a => ?_, fun ext a rest =>
    decode_of_one_operand (i := .jne _) (inMapping_of_absent rfl) rfl rest⟩
  · exact jumpsToOperand_of_jumpTo fun a => execJne_of_not_flagE a hE
  · exact ⟨_, execJne_of_flagE a hE, changesOnlyPc_with_pc s _⟩

end Sys2Proof.Machine
end

section
/-! PROOF. The family of 45_halt.md: HLT (rule R150) and the run state machine (rule R151). -/

namespace Sys2Proof.Machine

/-! ### HLT (45_halt.md rule R150) -/

/-- An opcode byte decodes to the instruction of the mapping that has no operand, whatever
follows. -/
theorem decode_of_no_operand {ext : AluExt} {i : Instr} (hm : i.inMapping ext = true)
    (ho : i.operands = []) (rest : List Byte) : decode ext (i.opcode :: rest) = .ok i := by
  obtain ⟨r, hrow, hbuild⟩ := lookupOpcode_of_inMapping (a := headByte rest)
    (b := headByte rest.tail) hm (by rw [ho]; rfl)
  rw [decode_cons_some _ hrow, hbuild]

/-- Settles O28: HLT writes the run state alone, and its row builds it from any window. -/
theorem hltHaltsAndChangesNothingElse : Obligations.HltHaltsAndChangesNothingElse := by
  unfold Obligations.HltHaltsAndChangesNothingElse
  intro s
  refine ⟨⟨_, execHlt_eq s, rfl, rfl, fun _ _ => rfl, rfl, fun _ => rfl, rfl, rfl⟩, ?_⟩
  exact fun ext rest => decode_of_no_operand (i := .hlt) (inMapping_of_absent rfl) rfl rest

/-! ### The run state machine (45_halt.md rule R151) -/

/-- Of the effects of a step only HLT's ends Halted: an error ends Faulted, the others keep
Running. -/
theorem hlt_of_step_halted {s t : State} (h : step s = .next t) (hh : t.run = .halted) :
    s.pc < memSize ∧ s.opcodeByte = opHLT := by
  have hne : s.run ≠ .halted := by
    rw [running_of_step h]
    decide
  cases stepEffect_of_step h with
  | halt hpc hop _ => exact ⟨hpc, hop⟩
  | error _ _ ht => subst ht; exact nomatch hh
  | unknown _ _ ht | load _ _ _ _ ht | print _ _ _ ht | push _ _ _ _ ht | pop _ _ _ _ ht
  | jump _ _ _ ht | notTaken _ _ ht | compare _ _ _ _ _ ht | alu _ _ _ _ _ _ ht =>
    subst ht
    exact absurd hh hne

/-- A step goes to Halted exactly when the byte at pc is HLT's. -/
theorem step_halted_iff {s t : State} (h : step s = .next t) :
    t.run = .halted ↔ s.pc < memSize ∧ s.opcodeByte = opHLT := by
  refine ⟨hlt_of_step_halted h, fun ⟨hpc, hop⟩ => ?_⟩
  have hhlt : step s = .next { s with run := .halted } := step_of_hlt (running_of_step h) hpc hop
  rw [← Host.Outcome.next.inj (hhlt.symm.trans h)]

/-- Settles O36: Halted is HLT's alone, a Faulted end is precise, and what is left of the three ends
of a step is Running. -/
theorem runStateMachineIsAsTabulated : Obligations.RunStateMachineIsAsTabulated := by
  unfold Obligations.RunStateMachineIsAsTabulated
  refine ⟨rfl, rfl, fun s t h => ?_, fun s hr t h => hr (running_of_step h)⟩
  refine ⟨running_of_step h, step_halted_iff h, fun r hf => (errorsArePrecise s t r h hf).2,
    fun _ hop hnf => ?_⟩
  rcases run_of_step h with hrun | hrun | ⟨e, -, rfl⟩
  · exact hrun
  · exact absurd ((step_halted_iff h).1 hrun).2 hop
  · exact absurd rfl (hnf _)

end Sys2Proof.Machine
end

section
/-! PROOF. The family of 70_reset_and_hazards.md: the load of a program (rule R191) and the reset in
any state (rule R190). -/

namespace Sys2Proof.Machine

/-! ### The load (70_reset_and_hazards.md rule R191) -/

theorem Memory.place_cons_of_lt {m : Memory} {addr : Nat} {v : Byte} {vs : List Byte}
    (h : addr < memSize) :
    Memory.place m addr (v :: vs) = Memory.place (Memory.write m addr v) (addr + 1) vs :=
  if_pos h

theorem Memory.place_cons_of_ge {m : Memory} {addr : Nat} {v : Byte} {vs : List Byte}
    (h : memSize ≤ addr) : Memory.place m addr (v :: vs) = m :=
  if_neg (Nat.not_lt.2 h)

/-- Placing bytes changes no cell below the address they are placed from. -/
theorem Memory.read_place_of_lt {m : Memory} {addr other : Nat} {vs : List Byte}
    (h : other < addr) : Memory.read (Memory.place m addr vs) other = Memory.read m other := by
  induction vs generalizing m addr with
  | nil => rfl
  | cons v vs ih =>
    by_cases ha : addr < memSize
    · rw [Memory.place_cons_of_lt ha, ih (Nat.lt_succ_of_lt h), Memory.read_write_ne h.ne]
    · rw [Memory.place_cons_of_ge (Nat.not_lt.1 ha)]

/-- The cell k beyond the address that bytes which fit are placed from is the k-th of them, and what
it was where there is none. -/
theorem Memory.read_place_add {m : Memory} {addr : Nat} {vs : List Byte} (hm : Memory.wf m = true)
    (hfit : addr + vs.length ≤ memSize) (k : Nat) :
    Memory.read (Memory.place m addr vs) (addr + k) = vs.getD k (Memory.read m (addr + k)) := by
  induction vs generalizing m addr k with
  | nil => rfl
  | cons v vs ih =>
    rw [List.length_cons] at hfit
    have ha : addr < memSize := by omega
    rw [Memory.place_cons_of_lt ha]
    cases k with
    | zero => exact (Memory.read_place_of_lt (Nat.lt_succ_self addr)).trans (Memory.read_write_self hm)
    | succ k =>
      have hne : addr + (k + 1) ≠ addr := by omega
      have hfit' : addr + 1 + vs.length ≤ memSize := by omega
      have hrest := ih (Memory.wf_write (v := v) hm ha) hfit' k
      rw [Nat.add_right_comm, Nat.add_assoc, Memory.read_write_ne hne] at hrest
      exact hrest

/-- A load from inside memory places the bytes that fit, and then faults with MEM_INDEX at the first
address beyond memory where there are more. -/
theorem loadFrom_eq {s : State} {addr : Nat} {bs : List Byte} (h : addr ≤ memSize) :
    s.loadFrom addr bs =
      if addr + bs.length ≤ memSize then { s with mem := Memory.place s.mem addr bs }
      else { s with mem := Memory.place s.mem addr bs }.takeError
        { code := .memIndex, info := memSize } := by
  induction bs generalizing s addr with
  | nil => exact (if_pos h).symm
  | cons b bs ih =>
    rw [List.length_cons, ← Nat.add_assoc, Nat.add_right_comm]
    rcases h.lt_or_eq with hlt | rfl
    · rw [loadFrom_cons_of_lt hlt, ih hlt, Memory.place_cons_of_lt hlt]
    · rw [loadFrom_cons_of_ge le_rfl, Memory.place_cons_of_ge le_rfl, if_neg (by omega)]

/-- Settles O47: a program that fits is placed over a memory that reads 0 everywhere; one that does
not leaves the run Faulted, where there is no step. -/
theorem loadWritesTheProgramOrFaults : Obligations.LoadWritesTheProgramOrFaults := by
  unfold Obligations.LoadWritesTheProgramOrFaults
  intro p program
  have hload := loadFrom_eq (s := State.resetWith p) (bs := program) (Nat.zero_le memSize)
  rw [Nat.zero_add] at hload
  refine ⟨fun hfit => ?_, fun hlong => ?_⟩
  · have hfit' : 0 + program.length ≤ memSize := (Nat.zero_add _).trans_le hfit
    have hread := Memory.read_place_add (State.reset_mem_wf p) hfit'
    simp only [Nat.zero_add] at hread
    exact ⟨_, hload.trans (if_pos hfit), rfl, hread⟩
  · rw [State.load, loadBase, hload.trans (if_neg (Nat.not_le.2 hlong))]
    exact ⟨_, rfl, rfl, rfl, fun _ h => nomatch running_of_step h⟩

/-! ### Reset in any state (70_reset_and_hazards.md rule R190) -/

/-- A reset keeps the parameters alone of the state it is applied in. -/
theorem applyReset_eq (s : State) : s.applyReset = { State.reset with params := s.params } := rfl

/-- Settles O2: `applyReset` leaves the reset state of O1 but for the parameters, and a step asks for
Running. -/
theorem resetLeavesAnyState : Obligations.ResetLeavesAnyState := by
  unfold Obligations.ResetLeavesAnyState
  intro s
  obtain ⟨hregs, hsp, hpc, hfl, -, hrun, hout⟩ := resetLeavesTheListedState
  rw [applyReset_eq]
  exact ⟨hregs, hsp, hpc, hfl, Memory.read_nil, hrun, hout, fun hr _ h => hr (running_of_step h)⟩

end Sys2Proof.Machine
end

section
/-! PROOF. The encoding (30_encoding.md): decoder and encoder agree on the well-formed instructions of
the mapping (rules R60 to R65 and R68), cut-off instructions (40_dispatch.md rule R82), and which bytes
are unknown opcodes (rule R67). -/

namespace Sys2Proof

open Machine

/-! ### What an instruction's operands are in bytes -/

theorem eq_byte_of_isRegister {w : WindowByte} (h : w.isRegister = true) : ∃ v, w = .byte v := by
  cases w with
  | byte v => exact ⟨v, rfl⟩
  | absent => cases h

theorem eq_byte_of_isImmediate {w : WindowByte} (h : w.isImmediate = true) : ∃ v, w = .byte v := by
  cases w with
  | byte v => exact ⟨v, rfl⟩
  | absent => cases h

/-- The operands of a well-formed instruction are all there. -/
theorem operands_of_wellFormed {i : Instr} (h : i.wellFormed = true) :
    ∃ bs : List Byte, i.operands = bs.map .byte := by
  cases i with
  | hlt => exact ⟨[], rfl⟩
  | prn a | push a | pop a | jmp a | jeq a | jne a =>
    obtain ⟨v, rfl⟩ := eq_byte_of_isRegister h
    exact ⟨[v], rfl⟩
  | ldi a imm =>
    obtain ⟨ha, hi⟩ := (Bool.and_eq_true _ _).mp h
    obtain ⟨v, rfl⟩ := eq_byte_of_isRegister ha
    obtain ⟨w, rfl⟩ := eq_byte_of_isImmediate hi
    exact ⟨[v, w], rfl⟩
  | add a b | mul a b | cmp a b | sub a b | div a b | and a b | or a b | xor a b =>
    obtain ⟨ha, hb⟩ := (Bool.and_eq_true _ _).mp h
    obtain ⟨v, rfl⟩ := eq_byte_of_isRegister ha
    obtain ⟨w, rfl⟩ := eq_byte_of_isRegister hb
    exact ⟨[v, w], rfl⟩

/-- Where the operands are all there, the encoding is the opcode and their bytes. -/
theorem encode_of_operands {i : Instr} {bs : List Byte} (h : i.operands = bs.map .byte) :
    encode i = i.opcode :: bs := by
  rw [encode, h, List.flatMap_map]
  exact congrArg _ (List.flatMap_singleton' bs)

theorem length_le_of_operands {i : Instr} {bs : List Byte} (h : i.operands = bs.map .byte) :
    bs.length ≤ 2 := by
  rw [← List.length_map (f := WindowByte.byte), ← h]
  exact operands_length_le i

theorem encode_length_le {i : Instr} (h : i.wellFormed = true) : (encode i).length ≤ 3 := by
  obtain ⟨bs, hbs⟩ := operands_of_wellFormed h
  rw [encode_of_operands hbs, List.length_cons]
  exact Nat.succ_le_succ (length_le_of_operands hbs)

/-- At most two bytes are what the decoder sees at the head of a window exactly where the window
begins with them. -/
theorem map_byte_eq_take_iff {bs window : List Byte} (hlen : bs.length ≤ 2) :
    bs.map .byte = [headByte window, headByte window.tail].take bs.length ↔ bs <+: window := by
  match bs, window with
  | [], _ => simp
  | [_], [] | [_, _], [] | [_, _], [_] => simp
  | [_], _ :: _ => simp
  | [_, _], _ :: _ :: _ => simp
  | _ :: _ :: _ :: _, _ => simp at hlen

/-! ### The decoder (40_dispatch.md rules R82 and R83) -/

/-- A row of the mapping takes its operands from the window in order. -/
theorem build_operands {ext : AluExt} {op : Byte} {r : OpcodeRow} (h : lookupOpcode ext op = some r)
    (a b : WindowByte) : (r.build a b).operands = [a, b].take (r.build a b).operands.length := by
  obtain ⟨-, hr | ⟨-, hr⟩⟩ := lookupOpcode_row h
  · simp only [baseMap, List.mem_cons, List.not_mem_nil, or_false] at hr
    rcases hr with rfl | rfl | rfl | rfl | rfl | rfl | rfl | rfl | rfl | rfl | rfl <;> rfl
  · simp only [extMap, List.mem_cons, List.not_mem_nil, or_false] at hr
    rcases hr with rfl | rfl | rfl | rfl | rfl <;> rfl

/-- An opcode and a window decode to an instruction exactly where the mapping has its opcode and the
window's head is its operands. -/
theorem decode_cons_eq_ok_iff {ext : AluExt} {op : Byte} {window : List Byte} {i : Instr} :
    decode ext (op :: window) = .ok i ↔ op = i.opcode ∧ i.inMapping ext = true ∧
      i.operands = [headByte window, headByte window.tail].take i.operands.length := by
  constructor
  · intro h
    cases hl : lookupOpcode ext op with
    | none => rw [decode_cons_none _ hl] at h; cases h
    | some r =>
      rw [decode_cons_some _ hl] at h
      obtain rfl := Except.ok.inj h
      have hop := build_opcode hl (headByte window) (headByte window.tail)
      refine ⟨hop.symm, ?_, build_operands hl _ _⟩
      rw [Instr.inMapping, hop, hl]
      rfl
  · rintro ⟨rfl, hm, ho⟩
    obtain ⟨r, hrow, hbuild⟩ := lookupOpcode_of_inMapping hm ho
    rw [decode_cons_some _ hrow, hbuild]

/-- Bytes decode to a well-formed instruction exactly where the mapping has its opcode and they begin
with its encoding. -/
theorem decode_eq_ok_iff {ext : AluExt} {bytes : List Byte} {i : Instr} (hwf : i.wellFormed = true) :
    decode ext bytes = .ok i ↔ i.inMapping ext = true ∧ encode i <+: bytes := by
  obtain ⟨bs, hbs⟩ := operands_of_wellFormed hwf
  rw [encode_of_operands hbs]
  cases bytes with
  | nil => simp
  | cons op window =>
    rw [decode_cons_eq_ok_iff, hbs, List.length_map, map_byte_eq_take_iff (length_le_of_operands hbs),
      List.cons_prefix_cons, eq_comm, and_left_comm]

/-- Settles O5: bytes that begin with the encoding are what decodes to the instruction. -/
theorem decodeOfEncodeIsTheInstruction : Obligations.DecodeOfEncodeIsTheInstruction := by
  unfold Obligations.DecodeOfEncodeIsTheInstruction
  exact fun ext i rest hwf hm => (decode_eq_ok_iff hwf).2 ⟨hm, List.prefix_append _ rest⟩

/-- Settles O6, by the other direction of the equivalence that settles O5. -/
theorem decodedBytesBeginWithTheEncoding : Obligations.DecodedBytesBeginWithTheEncoding := by
  unfold Obligations.DecodedBytesBeginWithTheEncoding
  intro ext bytes i h hwf
  obtain ⟨hm, rest, hrest⟩ := (decode_eq_ok_iff hwf).1 h
  exact ⟨hm, rest, hrest.symm⟩

/-- Settles O7: HLT's row and the rows of the two-byte opcodes each build their instruction whatever
bytes follow. -/
theorem windowBytesBeyondTheLengthAreNotReferenced :
    Obligations.WindowBytesBeyondTheLengthAreNotReferenced := by
  unfold Obligations.WindowBytesBeyondTheLengthAreNotReferenced
  intro ext op a w w'
  refine ⟨?_, fun hop => ?_⟩
  · rintro rfl
    have hhlt (rest : List Byte) : decode ext (0x01 :: rest) = .ok .hlt :=
      decode_of_no_operand (i := .hlt) (inMapping_of_absent rfl) rfl rest
    rw [hhlt, hhlt]
  · have hone {i : Instr} (hm : i.inMapping .absent = true) (ho : i.operands = [.byte a]) :
        decode ext (i.opcode :: a :: w) = decode ext (i.opcode :: a :: w') := by
      rw [decode_of_one_operand (inMapping_of_absent hm) ho,
        decode_of_one_operand (inMapping_of_absent hm) ho]
    simp only [List.mem_cons, List.not_mem_nil, or_false] at hop
    rcases hop with rfl | rfl | rfl | rfl | rfl | rfl
    · exact hone (i := .prn _) rfl rfl
    · exact hone (i := .push _) rfl rfl
    · exact hone (i := .pop _) rfl rfl
    · exact hone (i := .jmp _) rfl rfl
    · exact hone (i := .jeq _) rfl rfl
    · exact hone (i := .jne _) rfl rfl

/-- Settles O50: the window's head, padded with ABSENT, is the instruction's operands. -/
theorem cutOffInstructionsDecodeWithAbsentOperands :
    Obligations.CutOffInstructionsDecodeWithAbsentOperands := by
  unfold Obligations.CutOffInstructionsDecodeWithAbsentOperands
  intro ext i present missing hm ho
  exact decode_cons_eq_ok_iff.2
    ⟨rfl, hm, window_of_padded ho (operands_length_le i) rfl rfl⟩

/-! ### The opcode mapping (30_encoding.md rules R65, R67 and R68) -/

/-- A number below 256 is a byte's exactly where some row of the mapping has that byte. -/
theorem isSome_lookupOpcode_iff {ext : AluExt} {n : Nat} :
    n < 256 ∧ (lookupOpcode ext (BitVec.ofNat 8 n)).isSome = true ↔
      n ∈ (opcodeMap ext).map fun r => r.opcode.toNat := by
  simp only [lookupOpcode, List.find?_isSome, beq_iff_eq, List.mem_map]
  constructor
  · rintro ⟨hn, r, hr, hop⟩
    exact ⟨r, hr, by rw [hop, BitVec.toNat_ofNat, Nat.mod_eq_of_lt hn]⟩
  · rintro ⟨r, hr, rfl⟩
    exact ⟨r.opcode.isLt, r, hr, by simp⟩

/-- No two rows of the mapping have the same byte, so all bytes but as many as it has rows are
unknown. -/
theorem length_unknown_opcodes (ext : AluExt) : ((List.range 256).filter fun n =>
    (lookupOpcode ext (BitVec.ofNat 8 n)).isNone).length = 256 - (opcodeMap ext).length := by
  have hnodup : ((opcodeMap ext).map fun r => r.opcode.toNat).Nodup := by
    cases ext with
    | absent | unsupported | ls8 => decide
  have hknown : ((List.range 256).filter fun n => (lookupOpcode ext (BitVec.ofNat 8 n)).isSome).Perm
      ((opcodeMap ext).map fun r => r.opcode.toNat) :=
    (List.perm_ext_iff_of_nodup (List.nodup_range.filter _) hnodup).2 fun n => by
      rw [List.mem_filter, List.mem_range, isSome_lookupOpcode_iff]
  have hsplit := (List.filter_append_perm (fun n => (lookupOpcode ext (BitVec.ofNat 8 n)).isNone)
    (List.range 256)).length_eq
  rw [List.length_append, List.length_range] at hsplit
  simp only [Option.not_isNone, hknown.length_eq, List.length_map] at hsplit
  omega

/-- Settles O8: the mapping has 11 rows under Absent and 16 otherwise, and the listed bytes are in
none of them. -/
theorem opcodeMapIsClosed : Obligations.OpcodeMapIsClosed := by
  unfold Obligations.OpcodeMapIsClosed
  refine ⟨length_unknown_opcodes .absent, fun ext hx => ?_, fun ext op hop => ?_⟩
  · cases ext with
    | absent => exact absurd rfl hx
    | unsupported => exact length_unknown_opcodes .unsupported
    | ls8 => exact length_unknown_opcodes .ls8
  · have hout : ∀ op ∈ [0x00, 0x11, 0x13, 0x50, 0x52, 0x57, 0x58, 0x59, 0x5A, 0x48, 0x65, 0x66, 0x69,
        0x83, 0x84, 0xA4, 0xAC, 0xAD], op ∉ baseMap.map OpcodeRow.opcode ∧
          op ∉ extMap.map OpcodeRow.opcode := by decide
    obtain ⟨hbase, hext⟩ := hout op hop
    rw [lookupOpcode_eq_none hbase (.inr hext)]
    rfl

/-- Settles O9: each word is its instruction's opcode and operand bytes, and XOR's byte is outside the
mapping under Absent. -/
theorem writtenOutWordsDecode : Obligations.WrittenOutWordsDecode := by
  unfold Obligations.WrittenOutWordsDecode
  exact ⟨decode_of_no_operand (i := .hlt) rfl rfl [],
    decode_of_two_operands (i := .ldi _ _) rfl rfl [],
    decode_of_one_operand (i := .push _) rfl rfl [],
    decode_of_one_operand (i := .jeq _) rfl rfl [],
    decode_of_two_operands (i := .cmp _ _) rfl rfl [],
    decode_of_two_operands (i := .xor _ _) rfl rfl [],
    decode_cons_none _ rfl⟩

end Sys2Proof
end

section
/-! PROOF. Fetch, decode and dispatch together (40_dispatch.md rules R80 to R83). -/

namespace Sys2Proof.Machine

/-- Settles O29: in Running `step` is `runInstruction`, which goes by what is decoded. -/
theorem stepRunsTheDecodedInstruction : Obligations.StepRunsTheDecodedInstruction := by
  unfold Obligations.StepRunsTheDecodedInstruction
  intro s i hr h
  rw [step_running hr, runInstruction, h]

/-- Settles O30: the bytes fetched are those of the three addresses from pc on. -/
theorem fetchReadsOpcodeAndWindow : Obligations.FetchReadsOpcodeAndWindow := by
  unfold Obligations.FetchReadsOpcodeAndWindow
  exact fun s k => Memory.bytesAt_getElem? s.mem s.pc maxInsnLen k

/-- At most three bytes that stand in memory at pc are the first bytes of the fetch. -/
theorem bytes_prefix_fetchBytes {s : State} {bs : List Byte} (hlen : bs.length ≤ 3)
    (hfit : s.pc + bs.length ≤ 256)
    (h : ∀ k, k < bs.length → bs[k]? = some (Memory.read s.mem (s.pc + k))) :
    bs <+: s.fetchBytes := by
  refine List.prefix_iff_getElem?.2 fun k hk => ?_
  have hin : k < 3 ∧ s.pc + k < 256 := by omega
  rw [fetchReadsOpcodeAndWindow s k, if_pos hin, ← h k hk, List.getElem?_eq_getElem hk]

/-- Settles O31: the fetch begins with the encoding, so it decodes to the instruction, which the step
runs. -/
theorem stepRunsTheEncodedInstruction : Obligations.StepRunsTheEncodedInstruction := by
  unfold Obligations.StepRunsTheEncodedInstruction
  intro s i hr hwf hm hfit h
  have hfetch : encode i <+: s.fetchBytes := bytes_prefix_fetchBytes (encode_length_le hwf) hfit h
  exact stepRunsTheDecodedInstruction s i hr ((decode_eq_ok_iff hwf).2 ⟨hm, hfetch⟩)

end Sys2Proof.Machine
end

section
/-! PROOF. What a step leaves of memory, output, registers, pc and parameters (10_state.md rules R25,
R27, R28 and R34, 20_memory.md rule R42), read off its effect; and the machine's invariant, which every
step keeps (10_state.md rules R28, R31 and R33, 60_exceptions.md rules R161 and R167). -/

namespace Sys2Proof.Machine

/-! ### pc, memory and output -/

/-- Settles O38: an instruction of three bytes that does not raise has its last at 255 or below, one of
two bytes that looks at its operand has it there too, and a branch that is not taken advances by 2. -/
theorem noStepMovesPcBeyond0x101 : Obligations.NoStepMovesPcBeyond0x101 := by
  unfold Obligations.NoStepMovesPcBeyond0x101
  intro s t h hne
  have hsize : memSize = 256 := memSize_eq
  cases stepEffect_of_step h with
  | error _ _ ht | halt _ _ ht => subst ht; exact absurd rfl hne
  | jump i _ _ ht =>
    have := (s.reg i).isLt
    have htpc : t.pc = (s.reg i).toNat := by rw [ht]
    omega
  | unknown hpc _ ht =>
    have htpc : t.pc = s.pc + 1 := by rw [ht]
    omega
  | notTaken hpc _ ht =>
    have htpc : t.pc = s.pc + 2 := by rw [ht]
    omega
  | print _ _ hi ht | push _ _ hi _ ht | pop _ _ hi _ ht =>
    have htpc : t.pc = s.pc + 2 := by rw [ht]
    have hfit := hi.1
    omega
  | load _ _ _ hfit ht =>
    have htpc : t.pc = s.pc + 3 := by rw [ht]
    omega
  | compare _ _ _ _ hj ht | alu _ _ _ _ _ hj ht =>
    have htpc : t.pc = s.pc + 3 := by rw [ht]
    have hfit := hj.1
    omega

/-- A step leaves memory, or it is PUSH's with SP not 0. -/
theorem mem_of_step {s t : State} (h : step s = .next t) :
    t.mem = s.mem ∨ s.opcodeByte = opPUSH ∧ s.sp ≠ 0 ∧ ∃ i, t = s.pushed i := by
  cases stepEffect_of_step h with
  | push i hop _ hsp ht => exact .inr ⟨hop, hsp, i, ht⟩
  | error _ _ ht | unknown _ _ ht | halt _ _ ht | load _ _ _ _ ht | print _ _ _ ht
  | pop _ _ _ _ ht | jump _ _ _ ht | notTaken _ _ ht | compare _ _ _ _ _ ht
  | alu _ _ _ _ _ _ ht => exact .inl (by subst ht; rfl)

/-- Settles O40: PUSH changes the cell at `SP - 1` alone, which does not wrap as SP is not 0. -/
theorem onlyPushWritesMemory : Obligations.OnlyPushWritesMemory := by
  unfold Obligations.OnlyPushWritesMemory
  intro s t addr h hne
  rcases mem_of_step h with hmem | ⟨hop, hsp, i, rfl⟩
  · exact absurd (by rw [hmem]) hne
  · have haddr : addr = (s.reg 7 - 1).toNat := of_not_not fun ha => hne (read_pushed_ne ha)
    have hpos : (s.reg 7).toNat ≠ 0 := fun hz => hsp (BitVec.eq_of_toNat_eq hz)
    exact ⟨hop, by bv_omega, pushed_sp⟩

/-- Settles O41, by the effect of the step: PRN's alone writes the output. -/
theorem onlyPrnEmits : Obligations.OnlyPrnEmits := by
  unfold Obligations.OnlyPrnEmits
  intro s t h
  cases stepEffect_of_step h with
  | print i hop _ ht => exact .inr ⟨hop, s.reg i, by rw [ht, emit_out]⟩
  | error _ _ ht | unknown _ _ ht | halt _ _ ht | load _ _ _ _ ht | push _ _ _ _ ht
  | pop _ _ _ _ ht | jump _ _ _ ht | notTaken _ _ ht | compare _ _ _ _ _ ht
  | alu _ _ _ _ _ _ ht => exact .inl (by subst ht; rfl)

/-- Settles O43: no effect of a step writes the parameters. -/
theorem noStepWritesTheParameters : Obligations.NoStepWritesTheParameters := by
  unfold Obligations.NoStepWritesTheParameters
  refine fun s => ⟨rfl, fun t h => ?_⟩
  cases stepEffect_of_step h with
  | error _ _ ht | unknown _ _ ht | halt _ _ ht | load _ _ _ _ ht | print _ _ _ ht
  | push _ _ _ _ ht | pop _ _ _ _ ht | jump _ _ _ ht | notTaken _ _ ht | compare _ _ _ _ _ ht
  | alu _ _ _ _ _ _ ht => subst ht; rfl

/-! ### Registers (10_state.md rule R25) -/

/-- A register that a write changes is the one written. -/
theorem eq_of_reg_setReg_ne {s : State} {i j : Fin nRegs} {v : Byte}
    (h : (s.setReg i v).reg j ≠ s.reg j) : j = i :=
  of_not_not fun hne => h (reg_setReg_ne (Ne.symm hne))

/-- An ALU operation with a result has its opcode, one of the extension's only under LS8. -/
theorem opcodeByte_of_aluFunction {s : State} {f : Byte → Byte → Byte} (h : AluFunction s f) :
    s.opcodeByte ∈ [opADD, opMUL, opSUB, opDIV, opAND, opOR, opXOR] ∧
      (s.opcodeByte ∈ [opSUB, opDIV, opAND, opOR, opXOR] → s.params.aluExt = .ls8) := by
  cases h with
  | add hop | mul hop => rw [hop]; exact ⟨by decide, fun hext => absurd hext (by decide)⟩
  | sub hop hx | div hop hx | and hop hx | or hop hx | xor hop hx =>
    rw [hop]; exact ⟨by decide, fun _ => hx⟩

/-- Settles O42: LDI, the ALU operations and POP write the register operand a names, PUSH and POP write
SP, and every other effect leaves the registers. -/
theorem registersChangeOnlyAsTabulated : Obligations.RegistersChangeOnlyAsTabulated := by
  unfold Obligations.RegistersChangeOnlyAsTabulated
  intro s t i h hne
  cases stepEffect_of_step h with
  | error _ _ ht | unknown _ _ ht | halt _ _ ht | print _ _ _ ht | jump _ _ _ ht
  | notTaken _ _ ht | compare _ _ _ _ _ ht => subst ht; exact absurd rfl hne
  | load j hop hj _ ht =>
    subst ht
    obtain rfl := eq_of_reg_setReg_ne hne
    exact .inl ⟨by simp [hop, opLDI], by simp [hop, opLDI], hj.2⟩
  | alu f j _ hf hj _ ht =>
    subst ht
    obtain rfl := eq_of_reg_setReg_ne hne
    obtain ⟨hop, hls8⟩ := opcodeByte_of_aluFunction hf
    exact .inl ⟨.tail _ (.tail _ hop), hls8, hj.2⟩
  | push j hop _ _ ht =>
    subst ht
    exact .inr ⟨by simp [hop, opPUSH], eq_of_reg_setReg_ne hne⟩
  | pop j hop hj _ ht =>
    subst ht
    by_cases h7 : i = 7
    · exact .inr ⟨by simp [hop, opPOP], h7⟩
    · have hij : i = j := of_not_not fun hij => hne (popped_keepsRegisters i (by simp [hij, h7]))
      exact .inl ⟨by simp [hop, opPOP], by simp [hop, opPOP], hij ▸ hj.2⟩

/-! ### The invariant -/

theorem inv_iff (s : State) : s.inv = true ↔ Memory.wf s.mem = true ∧ s.pc ≤ 0x102 ∧
    legalFlags s.fl = true ∧ s.faultRecordSound = true := by
  simp [State.inv, State.pcInRange, and_assoc]

/-- Settles O3: the reset state has empty memory, pc 0, FL 0 and no fault record. -/
theorem invariantHoldsAtReset : Obligations.InvariantHoldsAtReset := by
  unfold Obligations.InvariantHoldsAtReset
  exact fun p => (inv_iff _).2 ⟨State.reset_mem_wf p, Nat.zero_le _, rfl, rfl⟩

theorem wf_of_step {s t : State} (h : step s = .next t) (hm : Memory.wf s.mem = true) :
    Memory.wf t.mem = true := by
  rcases mem_of_step h with hmem | ⟨-, -, i, rfl⟩
  · rw [hmem]
    exact hm
  · exact Memory.wf_write hm (s.sp - 1).isLt

theorem legalFlags_of_step {s t : State} (h : step s = .next t) (hfl : legalFlags s.fl = true) :
    legalFlags t.fl = true := by
  rcases fl_of_step h with hkeep | ⟨-, va, vb, hcmp⟩
  · rw [hkeep]
    exact hfl
  · rw [hcmp]
    exact legalFlags_compareFlags va vb

@[simp] theorem takeError_sp (s : State) (e : Raised) : (s.takeError e).sp = s.sp := rfl

/-- The record of an error whose cause holds is sound in the state the error leaves. -/
theorem faultRecordSound_takeError {s : State} {e : Raised} (hpc : s.pc ≤ 0x102)
    (hc : ErrorCause s e) : (s.takeError e).faultRecordSound = true := by
  have hbyte (v : Byte) : v.toNat < 256 := v.isLt
  cases hc with
  | fetch h =>
    have haddr : memSize ≤ s.pc ∧ s.pc ≤ 0x102 := ⟨h, hpc⟩
    simpa [State.faultRecordSound] using haddr
  | operand k hlt hk h =>
    have haddr : memSize ≤ s.pc + k ∧ s.pc + k ≤ 0x102 := ⟨h, by rw [memSize_eq] at hlt; omega⟩
    simpa [State.faultRecordSound] using haddr
  | register v h => simp [State.faultRecordSound, h, hbyte v]
  | overflow _ h => simp [State.faultRecordSound, h]
  | underflow _ h => simpa [State.faultRecordSound] using h
  | unknownOpcode hp h => simp [State.faultRecordSound, hp, h, hbyte s.opcodeByte]
  | unsupportedAlu hx h => simp [State.faultRecordSound, hx, h, hbyte s.opcodeByte]
  | divideByZero j hx h => simp [State.faultRecordSound, hx, h]

/-- Settles O4, part by part; an error's record is sound by the error's cause. -/
theorem invariantKeptByEveryStep : Obligations.InvariantKeptByEveryStep := by
  unfold Obligations.InvariantKeptByEveryStep
  intro s t hinv h
  obtain ⟨hm, hpc, hfl, -⟩ := (inv_iff s).1 hinv
  refine (inv_iff t).2 ⟨wf_of_step h hm, ?_, legalFlags_of_step h hfl, ?_⟩
  · by_cases hkeep : t.pc = s.pc
    · exact hkeep.trans_le hpc
    · exact (noStepMovesPcBeyond0x101 s t h hkeep).trans (by decide)
  · rcases run_of_step h with hrun | hrun | ⟨e, hc, rfl⟩
    · simp [State.faultRecordSound, hrun]
    · simp [State.faultRecordSound, hrun]
    · exact faultRecordSound_takeError hpc hc

end Sys2Proof.Machine
end

section
/-! PROOF. A PUSH followed by a POP (43_stack.md rule R133) and by a fetch (20_memory.md rule R50). -/

namespace Sys2Proof.Machine

/-- With SP above 0 the next state of a PUSH is `pushed`. -/
theorem eq_pushed_of_execPush {s t : State} {i : Fin nRegs} (hsp : 0 < (s.reg 7).toNat)
    (h : exec (.push (regOpnd i)) s = .next t) : t = s.pushed i := by
  have hne : s.sp ≠ 0 := fun hz => hsp.ne' (congrArg BitVec.toNat hz)
  exact Host.Outcome.next.inj (h.symm.trans (execPush_of_sp_ne_zero hne))

/-- Settles O23: the POP reads the cell the PUSH wrote, and the two moves of SP cancel. -/
theorem pushThenPopRoundTrips : Obligations.PushThenPopRoundTrips := by
  unfold Obligations.PushThenPopRoundTrips
  intro s t i j hm hi hj hpos hle h
  obtain rfl := eq_pushed_of_execPush hpos h
  have hsp : (s.pushed i).reg 7 = s.reg 7 - 1 := pushed_sp
  have hlt : ((s.pushed i).reg 7).toNat < stackTop.toNat := by
    rw [hsp, stackTop_toNat]
    bv_omega
  have hread : Memory.read (s.pushed i).mem ((s.pushed i).reg 7).toNat = s.reg i := by
    rw [hsp, read_pushed_self hm, if_neg hi]
  refine ⟨(s.pushed i).popped j, execPop_of_sp_lt hlt, ?_, ?_, fun k hk => ?_, rfl⟩
  · rw [popped_reg_of_ne hj, reg_setReg_self, hread]
  · rw [popped_sp_of_ne hj, hsp, BitVec.sub_add_cancel]
  · by_cases hk7 : k = 7
    · rw [hk7, popped_sp_of_ne hj, hsp, BitVec.sub_add_cancel]
    · rw [popped_keepsRegisters k (by simpa [hk7] using hk),
        pushed_keepsRegisters k (by simpa using hk7)]

/-- Settles O24: the PUSH leaves pc at the cell it wrote. -/
theorem pushIsSeenByTheNextFetch : Obligations.PushIsSeenByTheNextFetch := by
  unfold Obligations.PushIsSeenByTheNextFetch
  intro s t i hm hi hpos hpc h
  obtain rfl := eq_pushed_of_execPush hpos h
  have haddr : (s.pushed i).pc = (s.reg 7 - 1).toNat := by
    show s.pc + 2 = _
    bv_omega
  have hlt : (s.pushed i).pc < memSize := haddr ▸ (s.reg 7 - 1).isLt
  rw [fetchBytes_cons hlt, List.head?_cons, State.opcodeByte, haddr, read_pushed_self hm, if_neg hi]

end Sys2Proof.Machine
end

section
/-! PROOF. The canonical form of memory is faithful to the array (20_memory.md rule R40). -/

namespace Sys2Proof.Machine

/-- The first listed cell reads otherwise than in a memory that lists only later cells. -/
theorem Memory.read_ne_of_canonicalFrom_succ {lo a : Nat} {v : Byte} {m m' : Memory}
    (hm : Memory.canonicalFrom lo ((a, v) :: m) = true)
    (hm' : Memory.canonicalFrom (a + 1) m' = true) :
    Memory.read ((a, v) :: m) a ≠ Memory.read m' a := by
  rw [Memory.read_cons, if_pos rfl, Memory.read_below hm' (Nat.lt_succ_self a)]
  exact (Memory.canonicalFrom_cons.1 hm).2.2.1

/-- Memories in canonical form that read alike list the same cells: the first of each has the same
address, since neither reads as unlisted in the other, and then the rests read alike. -/
theorem Memory.eq_of_read_eq {lo : Nat} {m m' : Memory} (hm : Memory.canonicalFrom lo m = true)
    (hm' : Memory.canonicalFrom lo m' = true)
    (h : ∀ addr, addr < memSize → Memory.read m addr = Memory.read m' addr) : m = m' := by
  induction m generalizing lo m' with
  | nil =>
    cases m' with
    | nil => rfl
    | cons c' m' =>
      have ha' := (Memory.canonicalFrom_cons.1 hm').2.1
      exact absurd (h c'.1 ha').symm (Memory.read_ne_of_canonicalFrom_succ hm' rfl)
  | cons c m ih =>
    obtain ⟨a, v⟩ := c
    obtain ⟨-, ha, -, hrest⟩ := Memory.canonicalFrom_cons.1 hm
    cases m' with
    | nil => exact absurd (h a ha) (Memory.read_ne_of_canonicalFrom_succ hm rfl)
    | cons c' m' =>
      obtain ⟨a', v'⟩ := c'
      obtain ⟨-, ha', hv', hrest'⟩ := Memory.canonicalFrom_cons.1 hm'
      rcases Nat.lt_trichotomy a a' with hlt | rfl | hlt
      · exact absurd (h a ha) (Memory.read_ne_of_canonicalFrom_succ hm
          (Memory.canonicalFrom_cons.2 ⟨hlt, ha', hv', hrest'⟩))
      · have hv : v = v' := by simpa [Memory.read_cons] using h a ha
        have htail : m = m' := ih hrest hrest' fun addr haddr => by
          by_cases heq : a = addr
          · subst heq
            rw [Memory.read_below hrest (Nat.lt_succ_self a),
              Memory.read_below hrest' (Nat.lt_succ_self a)]
          · simpa [Memory.read_cons, heq] using h addr haddr
        rw [hv, htail]
      · exact absurd (h a' ha').symm (Memory.read_ne_of_canonicalFrom_succ hm'
          (Memory.canonicalFrom_cons.2 ⟨hlt, (Memory.canonicalFrom_cons.1 hm).2⟩))

/-- Settles O45: `Memory.wf` is the canonical form from address 0 on. -/
theorem canonicalMemoriesThatReadAlikeAreEqual :
    Obligations.CanonicalMemoriesThatReadAlikeAreEqual := by
  unfold Obligations.CanonicalMemoriesThatReadAlikeAreEqual
  exact fun m m' hm hm' h => Memory.eq_of_read_eq hm hm' h

end Sys2Proof.Machine
end

section
/-! PROOF. A walk over zero bytes under Permissive (40_dispatch.md rule R91). -/

namespace Sys2Proof.Machine

/-- The byte 0 is an unknown opcode under every ALU_EXT (30_encoding.md rule R67). -/
theorem lookupOpcode_zero (ext : AluExt) : lookupOpcode ext 0 = none :=
  lookupOpcode_eq_none (by decide) (.inr (by decide))

/-- A zero byte is stepped over. -/
theorem step_of_zero_byte {s : State} (hr : s.run = .running) (hpc : s.pc < memSize)
    (hp : s.params.unknownOpcodePolicy = .permissive) (h0 : s.opcodeByte = 0) :
    step s = .next { s with pc := s.pc + 1 } := by
  have hl : lookupOpcode s.params.aluExt s.opcodeByte = none := by rw [h0, lookupOpcode_zero]
  rw [step_of_lookup_none hr hpc hl, unknownOpcode_permissive hp]

/-- A run over n zero bytes goes on from behind them. -/
theorem run_over_zero_bytes {s : State} (hr : s.run = .running)
    (hp : s.params.unknownOpcodePolicy = .permissive) (n k : Nat) (hn : s.pc + n ≤ memSize)
    (h0 : ∀ addr, s.pc ≤ addr → addr < s.pc + n → Memory.read s.mem addr = 0) :
    Sys2Proof.core.run (k + n) s = Sys2Proof.core.run k { s with pc := s.pc + n } := by
  induction n generalizing s with
  | zero => rfl
  | succ n ih =>
    have hstep := step_of_zero_byte hr (by omega) hp (h0 s.pc le_rfl (by omega))
    have hpc : s.pc + (n + 1) = s.pc + 1 + n := by omega
    rw [hpc] at hn h0
    have hrest := ih (s := { s with pc := s.pc + 1 }) hr hp hn fun addr hlo =>
      h0 addr (Nat.le_of_succ_le hlo)
    rw [← Nat.add_assoc, core_run_succ _ hstep, hrest, hpc]

/-- Settles O44: the walk ends at 256, where the fetch raises. -/
theorem zeroMemoryIsWalkedToAFetchFault : Obligations.ZeroMemoryIsWalkedToAFetchFault := by
  unfold Obligations.ZeroMemoryIsWalkedToAFetchFault
  intro s hr hp hpc h0
  have hend : s.pc + (256 - s.pc) = 256 := by omega
  have hwalk (k : Nat) :
      Sys2Proof.core.run (k + (256 - s.pc)) s = Sys2Proof.core.run k { s with pc := 256 } := by
    rw [run_over_zero_bytes hr hp _ k hend.le fun addr hlo hhi => h0 addr hlo (by omega), hend]
  have hfault := step_of_pc_ge (s := { s with pc := 256 }) hr le_rfl
  refine ⟨?_, ?_⟩
  · rw [← Nat.zero_add (256 - s.pc), hwalk]
    rfl
  · rw [show 257 - s.pc = 1 + (256 - s.pc) by omega, hwalk, core_run_succ 0 hfault]
    rfl

end Sys2Proof.Machine
end

section
/-! PROOF. The loader's text (30_encoding.md rule R71, 60_exceptions.md rule R166) and the end of a run
(60_exceptions.md rule R170). -/

namespace Sys2Proof.Machine

/-- A text gives the bytes of the lines it was joined from. -/
theorem linesBytes_textLines_joinLines {lines : List (List Char)} (h : ∀ l ∈ lines, '\n' ∉ l) :
    linesBytes (textLines [] (joinLines lines)) = linesBytes lines := by
  cases lines with
  | nil => rfl
  | cons l ls => rw [textLines_joinLines h]

section
variable (s : State) {text : List Char}

theorem loadText_of_some {program : List Byte} (h : linesBytes (textLines [] text) = some program) :
    s.loadText (some text) = s.load program := by
  simp only [State.loadText, Option.bind_some, h]

theorem loadText_of_none (h : linesBytes (textLines [] text) = none) :
    s.loadText (some text) = s.takeLoadError := by
  simp only [State.loadText, Option.bind_some, h]

end

theorem startsWithBinary_append {token : List Char} (h : StartsWithBinary token)
    (rest : List Char) : StartsWithBinary (token ++ rest) := by
  cases token with
  | nil => simp [StartsWithBinary] at h
  | cons c cs => exact h

/-- Settles O48: a text is read back as its lines, which give their bytes unless one that is code has
no byte. -/
theorem loaderTextGivesBytesOrLoadError : Obligations.LoaderTextGivesBytesOrLoadError := by
  unfold Obligations.LoaderTextGivesBytesOrLoadError
  intro s
  refine ⟨fun lines hnl hign => loadText_of_some s ?_, rfl,
    fun before after token comment hnl hhash hcomment hcode hbad => loadText_of_none s ?_⟩
  · rw [linesBytes_textLines_joinLines (List.forall_mem_map.2 hnl), linesBytes_chars hign]
  · have hstrip : stripComment (token ++ comment) = token := by
      rw [stripComment_append hhash, stripComment_of_comment hcomment, List.append_nil]
    have hmem : token ++ comment ∈ before ++ (token ++ comment) :: after :=
      List.mem_append_right before List.mem_cons_self
    rw [linesBytes_textLines_joinLines hnl]
    exact linesBytes_eq_none_of_mem hmem (startsWithBinary_append hcode comment)
      (by rw [hstrip, lineByte_eq_none hbad])

/-- Settles O49: the host's view is a function of the run state, and a step asks for Running, of which
it shows nothing. -/
theorem runEndsWithStatusAndDiagnostic : Obligations.RunEndsWithStatusAndDiagnostic := by
  unfold Obligations.RunEndsWithStatusAndDiagnostic
  refine ⟨hostEnd_running, hostEnd_halted, hostEnd_faulted, fun s hend t h => hend ?_⟩
  rw [running_of_step h, hostEnd_running]

end Sys2Proof.Machine
end
